-- ==== Sys2Proof/Config.lean ====
section
/-! DEFINITION. Config: the parameters of spec/00_scope.md R9, with the open ones and the free values as constants
without a body, so that nothing can be proved about the value of one. -/

namespace Sys2Proof.Config

/-- W, the operand width in bits (R9, D6). -/
def operandWidth : Nat := 33

/-- KMAX, the largest Miller-Rabin round count (R9, D19). -/
def kMax : Nat := 255

/-- KGEN_MIN, the smallest round count FINDPRIME accepts (R9, D22). -/
def kGenMin : Nat := 20

/-- GEN, the generator of FINDPRIME (R9, R161). -/
def gen : Nat := 2

/-- The size in bytes of the register window (R70). -/
def windowBytes : Nat := 128

/-- BASE divided by 128: the platform's, OPEN (R9, R70). -/
opaque baseIndex : Nat

/-- BASE, the byte address of the register window, a multiple of 128 (R9, R70). -/
def base : Nat := windowBytes * baseIndex

/-- IRQ_LINE, the platform's interrupt line that the output IRQ drives: OPEN (R210). -/
opaque irqLine : Nat

/-- FREE VALUE: what the entropy source answers to the draw of this number (R51, I1). The draw brings it into its
range. Log entry 2. -/
opaque entropyValue : Nat → Nat

/-- FREE VALUE: what the read of this number of PRNG_STATE while BUSY = 1 returns (R41, I10). Log entry 4. -/
opaque busyPrngRead : Nat → BitVec 64

end Sys2Proof.Config
end

