-- ==== Sys2Proof/Word.lean ====
section
/-! DEFINITION. Word: the register word of EGCORE (spec/00_scope.md R9, R10). -/

namespace Sys2Proof

/-- A 64-bit register value, an unsigned number (R9 `REGW`, R10). -/
abbrev Word := BitVec 64

/-- A byte lane of the bus (R74). -/
abbrev Byte := BitVec 8

end Sys2Proof
end

