-- ==== Sys2Proof/Syntax.lean ====
section
/-! DEFINITION. Syntax: the commands of spec/opcode_table.json, the registers of the window, the host's accesses and
the events that move the machine. -/

namespace Sys2Proof

/-- The eight commands of the opcode map (R92). A command has no immediate field (R91): its inputs are the latched
operand registers that its format lists (R93), so no constructor has an argument. -/
inductive Instr where
  | modpow
  | modinv
  | mrtest
  | mrround
  | findprime
  | encrypt
  | encryptR
  | decrypt
  deriving DecidableEq, Repr

/-- The operand registers (R31, R39). -/
inductive Operand where
  | a
  | b
  | c
  | d
  | e
  deriving DecidableEq, Repr

/-- The operand formats of commands (R93). -/
inductive Format where
  | op2
  | op3
  | op4
  | op5
  deriving DecidableEq, Repr

/-- Why a command word is illegal (R95). -/
inductive DecodeError where
  /-- Bits 63:8 are not all zero. -/
  | mbzNotZero
  /-- The OPCODE is 0x00 or lies in 0x09 to 0xFF. -/
  | reservedOpcode
  /-- The bytes given are not the eight byte lanes of one word (R90: one 64-bit write). -/
  | notOneWord
  deriving DecidableEq, Repr

/-- One row of spec/opcode_table.json: a word w is the command's when `w &&& mask = pattern` (R94). -/
structure OpcodeRow where
  instr : Instr
  mnemonic : String
  format : Format
  mask : Word
  pattern : Word
  deriving DecidableEq, Repr

/-- The sixteen slots of the register window (R30). -/
inductive Reg where
  | id
  | ctrl
  | status
  | errcode
  | cmd
  | prngState
  | opr (x : Operand)
  | res0
  | res1
  | res2
  | reserved70
  | reserved78
  deriving DecidableEq, Repr

/-- The width of a host access (R72). -/
inductive AccessWidth where
  | w8
  | w16
  | w32
  | w64
  deriving DecidableEq, Repr

/-- A read, or a write of a value (R72). -/
inductive AccessKind where
  | read
  | write (v : Word)
  deriving DecidableEq, Repr

/-- A host access at byte address `BASE + off` (R71). -/
structure Access where
  width : AccessWidth
  off : Nat
  kind : AccessKind
  deriving DecidableEq, Repr

/-- One move of an agent (R14). A list of events is a merged order of the agents' moves (R78, R81). -/
inductive Event where
  /-- The host performs an access. -/
  | access (a : Access)
  /-- The sequencer takes the running command's completion step (R205, R206), if one runs. -/
  | complete
  /-- The sequencer gets the ephemeral r of a running ENCRYPT or ENCRYPT_R into L_R, before completion (R46). -/
  | latchR
  /-- The reset input is asserted (R230). -/
  | reset
  deriving DecidableEq, Repr

/-- A line of the notation for host programs (R110). `lat` is how many reads of STATUS find BUSY = 1 before the command
completes: the open LAT (R9, R101), as this program meets it. -/
inductive HostLine where
  /-- `wr NAME, v` -/
  | wr (r : Reg) (v : Word)
  /-- `rd NAME -> t` -/
  | rd (r : Reg)
  /-- `wait_idle` -/
  | waitIdle (lat : Nat)
  /-- `cmd MNEMONIC` -/
  | cmd (i : Instr)
  /-- `MNEMONIC a, b, …` -/
  | command (i : Instr) (args : List Word) (lat : Nat)
  deriving DecidableEq, Repr

end Sys2Proof
end

