-- ==== Sys2Proof/WellFormed.lean ====
section
/-! DEFINITION. WellFormed: which instructions, command words, operand ranges and host accesses are well formed. An
ill-formed command word is not an error of the bus: it is accepted and completes with IllegalCommand (R95). -/

namespace Sys2Proof

/-- Every constructor of `Instr` is a legal command: none has an argument (R91, R92). -/
def Instr.wf : Instr → Bool
  | .modpow => true
  | .modinv => true
  | .mrtest => true
  | .mrround => true
  | .findprime => true
  | .encrypt => true
  | .encryptR => true
  | .decrypt => true

/-- A legal command word has MBZ = 0 and an OPCODE of 0x01 to 0x08 (R90, R92, R95). -/
def wfCommandWord (w : Word) : Bool :=
  decide (w.toNat / 256 = 0) && decide (1 ≤ w.toNat % 256) && decide (w.toNat % 256 ≤ 8)

/-- A host access that EGCORE answers: a 64-bit access at a multiple of 8 inside the window (R70, R72). -/
def Access.wf (a : Access) : Bool :=
  decide (a.width = .w64) && decide (a.off % 8 = 0) && decide (a.off < 128)

end Sys2Proof
end

