-- ==== Sys2Proof/Decode.lean ====
section
/-! DEFINITION. Decode: the opcode map (R92 to R95), total on any word and on any bytes, rejecting by name; and after
it the encoder. -/

namespace Sys2Proof

/-- The operand format of a command (R93). -/
def Instr.format : Instr → Format
  | .modpow => .op3
  | .modinv => .op2
  | .mrtest => .op2
  | .mrround => .op2
  | .findprime => .op2
  | .encrypt => .op4
  | .encryptR => .op5
  | .decrypt => .op4

/-- OPCODE, bits 7:0 of a command word (R90). -/
def opcodeOf (w : Word) : BitVec 8 := w.extractLsb' 0 8

/-- MBZ, bits 63:8 of a command word (R90). -/
def mbzOf (w : Word) : BitVec 56 := w.extractLsb' 8 56

/-- The opcode map (R92). -/
def instrOfOpcode (op : BitVec 8) : Option Instr :=
  match op.toNat with
  | 1 => some .modpow
  | 2 => some .modinv
  | 3 => some .mrtest
  | 4 => some .mrround
  | 5 => some .findprime
  | 6 => some .encrypt
  | 7 => some .encryptR
  | 8 => some .decrypt
  | _ => none

/-- Decoding a command word: test bits 63:8, then look bits 7:0 up (R94, R95). -/
def decode (w : Word) : Except DecodeError Instr :=
  if mbzOf w = 0 then
    match instrOfOpcode (opcodeOf w) with
    | some i => .ok i
    | none => .error .reservedOpcode
  else .error .mbzNotZero

/-- The word whose byte lanes are the given bytes, the byte at the lowest address first (R74, little-endian). -/
def wordOfLanes : List Byte → Nat
  | [] => 0
  | b :: rest => b.toNat + 256 * wordOfLanes rest

/-- Decoding a command word from its eight byte lanes (R74, R90). -/
def decodeBytes (bytes : List Byte) : Except DecodeError Instr :=
  if bytes.length = 8 then decode (BitVec.ofNat 64 (wordOfLanes bytes)) else .error .notOneWord

/-- The lowest `n` byte lanes of a number, the lowest address first (R74). -/
def lanesOf : Nat → Nat → List Byte
  | 0, _ => []
  | n + 1, v => BitVec.ofNat 8 (v % 256) :: lanesOf n (v / 256)

/-- The number of bits is `nbits` (a command word has 64 and no operand word); the word is laid out as the bus lays it
out and given to the decoder. A number that has bits above bit 63 is no command word (R90). -/
def decodeTableWord (nbits w : Nat) : Option Instr :=
  if w % 2 ^ nbits < 2 ^ 64 then
    match decodeBytes (lanesOf 8 (w % 2 ^ nbits)) with
    | .ok i => some i
    | .error _ => none
  else none

/-- The command word of an instruction (R90, R92). -/
def encode : Instr → Word
  | .modpow => 0x0000000000000001
  | .modinv => 0x0000000000000002
  | .mrtest => 0x0000000000000003
  | .mrround => 0x0000000000000004
  | .findprime => 0x0000000000000005
  | .encrypt => 0x0000000000000006
  | .encryptR => 0x0000000000000007
  | .decrypt => 0x0000000000000008

/-- spec/opcode_table.json, row by row (R94: the mask is all ones and the match is the OPCODE). -/
def opcodeTable : List OpcodeRow :=
  [ ⟨.modpow, "MODPOW", .op3, 0xFFFFFFFFFFFFFFFF, 0x0000000000000001⟩,
    ⟨.modinv, "MODINV", .op2, 0xFFFFFFFFFFFFFFFF, 0x0000000000000002⟩,
    ⟨.mrtest, "MRTEST", .op2, 0xFFFFFFFFFFFFFFFF, 0x0000000000000003⟩,
    ⟨.mrround, "MRROUND", .op2, 0xFFFFFFFFFFFFFFFF, 0x0000000000000004⟩,
    ⟨.findprime, "FINDPRIME", .op2, 0xFFFFFFFFFFFFFFFF, 0x0000000000000005⟩,
    ⟨.encrypt, "ENCRYPT", .op4, 0xFFFFFFFFFFFFFFFF, 0x0000000000000006⟩,
    ⟨.encryptR, "ENCRYPT_R", .op5, 0xFFFFFFFFFFFFFFFF, 0x0000000000000007⟩,
    ⟨.decrypt, "DECRYPT", .op4, 0xFFFFFFFFFFFFFFFF, 0x0000000000000008⟩ ]

end Sys2Proof
end

