-- ==== Sys2Proof/Machine/State.lean ====
section
/-! DEFINITION. Machine/State: all the state the spec gives EGCORE (spec/10_state.md R30 to R55), the model's own
inputs and counters beside it, and the reset state. -/

namespace Sys2Proof.Machine

/-- The error kinds of R200; the absent kind is NONE, code 0. Codes 7 to 255 are never produced. -/
inductive ErrorKind where
  | invalidArgument
  | noInverseExists
  | blockTooLarge
  | invalidCipherBlock
  | generationFailed
  | illegalCommand
  deriving DecidableEq, Repr

/-- CTRL.RNG_MODE (R33): 0 is the entropy source, 1 the deterministic PRNG. -/
inductive RngMode where
  | entropy
  | deterministic
  deriving DecidableEq, Repr

/-- SEQ, the state of the sequencer (R43, R44). -/
inductive Seq where
  | idle
  | busy
  deriving DecidableEq, Repr

/-- Five operand values: the registers OPA to OPE (R39), or the latch L_OP[A..E] (R43). -/
structure Operands where
  a : Word
  b : Word
  c : Word
  d : Word
  e : Word
  deriving DecidableEq, Repr

/-- What a draw reads and changes (R50): PRNG_STATE, and the entropy source's answers to come.
`answers` holds the listed answers, oldest first (`none`: the source never answers that draw, R245); after the list the
answers are free values, numbered by `freeDraws`. The last two fields are the model's own. Log entries 2 and 3. -/
structure Rng where
  prngState : Word
  answers : List (Option Nat)
  freeDraws : Nat
  deriving DecidableEq, Repr

/-- The state. From `rngMode` to `rng.prngState` it is the spec's own (R30, R33, R34, R36, R37, R39 to R43); BUSY, ERR
and NONCRYPTO are computed (R34, R35; log entry 15). `rng.answers`, `rng.freeDraws`, `busyReads`, `readLog` and
`inputs` are the model's own (log entries 1, 2, 4, 9). -/
structure State where
  /-- CTRL.RNG_MODE (R33). -/
  rngMode : RngMode
  /-- CTRL.IRQ_EN (R33). -/
  irqEn : Bool
  /-- STATUS.DONE (R34). -/
  done : Bool
  /-- STATUS.OVR (R34). -/
  ovr : Bool
  /-- ERRCODE (R36); absent is NONE. -/
  errcode : Option ErrorKind
  /-- LASTCMD (R37). -/
  lastCmd : Word
  /-- OPA to OPE (R39). -/
  op : Operands
  /-- RES0 (R40). -/
  res0 : Word
  /-- RES1 (R40). -/
  res1 : Word
  /-- RES2 (R40). -/
  res2 : Word
  /-- SEQ (R43). -/
  seq : Seq
  /-- L_OP[A..E] (R43, R45). -/
  lop : Operands
  /-- L_MODE (R43, R45). -/
  lMode : RngMode
  /-- L_R (R43, R46). -/
  lR : BitVec 33
  /-- IRQ, the interrupt output (R43, R210). -/
  irq : Bool
  /-- PRNG_STATE (R41) and the entropy source's answers. -/
  rng : Rng
  /-- How many reads of PRNG_STATE a free value has answered. -/
  busyReads : Nat
  /-- The data the host's reads have returned, latest first. -/
  readLog : List Word
  /-- The moves to come of host, sequencer and reset input, in their merged order (R14, R78, R81). -/
  inputs : List Event
  deriving DecidableEq, Repr

/-- Why a step faults. -/
inductive Fault where
  /-- Raised by a host access of a width other than 64 bits or at an offset that is no multiple of 8 (R72, R215): the
  bus error response, with the byte address. Safe: the model stops where the host may go on. -/
  | busError (addr : Nat)
  /-- Raised by a host access to an address outside the window (R70), which is not EGCORE's. Safe. -/
  | outsideWindow (addr : Nat)
  /-- Raised by the completion step of a command one of whose draws the entropy source never answers (R245, I12): the
  core is stuck. Safe. -/
  | entropyNeverAnswers
  deriving DecidableEq, Repr

/-- Why a step is refused. -/
inductive Refusal where
  /-- Raised by `exec` only, for an instruction that has no meaning yet. Safe. -/
  | notModelled (mnemonic : String)
  deriving DecidableEq, Repr

/-- The machine right after reset (R55, R231). The fields that are the model's own are empty (DESIGN CHOICE, log entry
11). -/
def State.reset : State :=
  { rngMode := .entropy
    irqEn := false
    done := false
    ovr := false
    errcode := none
    lastCmd := 0
    op := ⟨0, 0, 0, 0, 0⟩
    res0 := 0
    res1 := 0
    res2 := 0
    seq := .idle
    lop := ⟨0, 0, 0, 0, 0⟩
    lMode := .entropy
    lR := 0
    irq := false
    rng := ⟨0, [], 0⟩
    busyReads := 0
    readLog := []
    inputs := [] }

end Sys2Proof.Machine
end

