-- ==== Sys2Proof/Machine/Flags.lean ====
section
/-! DEFINITION. Machine/Flags: the flags of STATUS, the words of CTRL, STATUS and ERRCODE, and the interrupt level. -/

namespace Sys2Proof.Machine

/-- CTRL.RNG_MODE as a bit (R33). -/
def RngMode.bit : RngMode → Bool
  | .entropy => false
  | .deterministic => true

/-- A bit of CTRL as RNG_MODE (R33). -/
def RngMode.ofBit : Bool → RngMode
  | false => .entropy
  | true => .deterministic

/-- The error codes (R200). -/
def ErrorKind.code : ErrorKind → Nat
  | .invalidArgument => 1
  | .noInverseExists => 2
  | .blockTooLarge => 3
  | .invalidCipherBlock => 4
  | .generationFailed => 5
  | .illegalCommand => 6

/-- STATUS.BUSY (R34, R35): SEQ is BUSY. -/
def State.busy (s : State) : Bool := decide (s.seq = .busy)

/-- STATUS.ERR (R34): ERRCODE is not 0. -/
def State.err (s : State) : Bool := s.errcode.isSome

/-- STATUS.NONCRYPTO (R34): CTRL.RNG_MODE. -/
def State.nonCrypto (s : State) : Bool := s.rngMode.bit

/-- One bit at a position of a number. -/
def bitAt (b : Bool) (i : Nat) : Nat := if b then 2 ^ i else 0

/-- What a read of CTRL returns (R33). -/
def State.ctrlWord (s : State) : Word := BitVec.ofNat 64 (bitAt s.rngMode.bit 0 + bitAt s.irqEn 1)

/-- What a read of STATUS returns (R34). -/
def State.statusWord (s : State) : Word :=
  BitVec.ofNat 64 (bitAt s.busy 0 + bitAt s.done 1 + bitAt s.err 2 + bitAt s.ovr 3 + bitAt s.nonCrypto 4)

/-- What a read of ERRCODE returns (R36, R200). -/
def State.errcodeWord (s : State) : Word :=
  match s.errcode with
  | none => 0
  | some e => BitVec.ofNat 64 e.code

/-- The level of the interrupt output (R210). -/
def irqLevel (irqEn done : Bool) : Bool := irqEn && done

/-- A host write to CTRL stores bits 1:0 (R33); the interrupt level follows IRQ_EN at once (R210). -/
def State.writeCtrl (s : State) (v : Word) : State :=
  { s with rngMode := RngMode.ofBit (v.getLsbD 0), irqEn := v.getLsbD 1, irq := irqLevel (v.getLsbD 1) s.done }

/-- A host write to STATUS clears DONE where bit 1 is 1 and OVR where bit 3 is 1 (R34); the interrupt level follows
DONE (R210, R213). -/
def State.writeStatus (s : State) (v : Word) : State :=
  { s with
    done := s.done && !v.getLsbD 1
    ovr := s.ovr && !v.getLsbD 3
    irq := irqLevel s.irqEn (s.done && !v.getLsbD 1) }

/-- A dropped write sets OVR (R38, R41, R214). -/
def State.overrun (s : State) : State := { s with ovr := true }

/-- The platform's interrupt lines that the core drives (R210): IRQ_LINE while IRQ = 1. -/
def State.assertedLines (s : State) : List Nat := if s.irq then [Config.irqLine] else []

end Sys2Proof.Machine
end

