-- ==== Sys2Proof/Machine/Operands.lean ====
section
/-! DEFINITION. Machine/Operands: the operand formats (R93) and the checks every command shares, the width check (R91,
R104 step 2) and the seed check (R53, R104 step 4). -/

namespace Sys2Proof.Machine

/-- The value of one operand. -/
def Operands.get (o : Operands) : Operand → Word
  | .a => o.a
  | .b => o.b
  | .c => o.c
  | .d => o.d
  | .e => o.e

/-- The operands with one of them changed. -/
def Operands.set (o : Operands) (x : Operand) (v : Word) : Operands :=
  match x with
  | .a => { o with a := v }
  | .b => { o with b := v }
  | .c => { o with c := v }
  | .d => { o with d := v }
  | .e => { o with e := v }

/-- The operands a format reads, in operand order (R93). -/
def formatOperands : Format → List Operand
  | .op2 => [.a, .b]
  | .op3 => [.a, .b, .c]
  | .op4 => [.a, .b, .c, .d]
  | .op5 => [.a, .b, .c, .d, .e]

/-- `fits33(v)` (R12). -/
def fits33 (v : Word) : Bool := decide (v.toNat < 2 ^ Config.operandWidth)

/-- The width check: every operand the format reads fits 33 bits (R104 step 2). Operands it does not read have no
effect (R92). -/
def widthOk (f : Format) (o : Operands) : Bool := (formatOperands f).all fun x => fits33 (o.get x)

/-- The seed check fails: deterministic mode with PRNG_STATE = 0 (R53, R104 step 4). PRNG_STATE cannot become 0
between acceptance and this check: writes are dropped while busy (R41) and a PRNG step keeps it nonzero (R52). -/
def seedBad (s : State) : Bool := decide (s.lMode = .deterministic) && decide (s.rng.prngState = 0)

end Sys2Proof.Machine
end

