-- ==== Sys2Proof/Machine/Ops.lean ====
section
/-! DEFINITION. Machine/Ops: the operations the meanings share: completion with results and completion with an error,
acceptance, reset, draws, and the host's reads and writes of the window. -/

namespace Sys2Proof.Machine

/-- A step's outcome on this machine. -/
abbrev Result := Host.Outcome State Fault Refusal

/-! ### Completion -/

/-- `finish(r0, r1, r2)`: completion without error, one atomic step (R205). -/
def finish (r0 r1 r2 : Nat) (s : State) : Result :=
  .next { s with
    res0 := BitVec.ofNat 64 r0
    res1 := BitVec.ofNat 64 r1
    res2 := BitVec.ofNat 64 r2
    errcode := none
    lR := 0
    seq := .idle
    done := true
    irq := irqLevel s.irqEn true }

/-- `fail E`: completion with an error, one atomic step (R202, R206). This is EGCORE's only way to report an error; it
takes no trap (R212). The host returns from it by writing 1 to STATUS bit 1 (R213, `State.writeStatus`). -/
def fail (e : ErrorKind) (s : State) : Result :=
  .next { s with
    res0 := 0
    res1 := 0
    res2 := 0
    errcode := some e
    lR := 0
    seq := .idle
    done := true
    irq := irqLevel s.irqEn true }

/-! ### Acceptance and reset -/

/-- Acceptance of a command word (R100); it leaves RES0 to RES2, PRNG_STATE and OVR as they are. -/
def accept (w : Word) (s : State) : State :=
  { s with
    lastCmd := w
    lop := s.op
    lMode := s.rngMode
    seq := .busy
    done := false
    errcode := none
    irq := false }

/-- The reset input (R230): every piece of the spec's state at its reset value (R55). The environment's part is kept:
the moves and entropy answers to come, the counters and what the host has read (DEDUCED, log entry 10). -/
def resetCore (s : State) : State :=
  { State.reset with
    rng := { State.reset.rng with answers := s.rng.answers, freeDraws := s.rng.freeDraws }
    busyReads := s.busyReads
    readLog := s.readLog
    inputs := s.inputs }

/-! ### Draws -/

/-- xorshift64 with the shifts 13, 7 and 17 (R52). -/
def prngStep (x0 : Word) : Word :=
  let x1 := x0 ^^^ (x0 <<< 13)
  let x2 := x1 ^^^ (x1 >>> 7)
  x2 ^^^ (x2 <<< 17)

/-- A value of the entropy source brought into the range of the draw (R50, R51): a value of the range is taken as it
is, so every value of the range is possible and no other (log entry 2). -/
def intoRange (lo hi v : Nat) : Nat :=
  if lo ≤ v ∧ v ≤ hi then v else lo + v % (hi - lo + 1)

/-- The entropy source's next answer (R51): the next listed one (absent: it never comes, R245), and a free value where
none is listed. -/
def entropyAnswer (g : Rng) : Option (Nat × Rng) :=
  match g.answers with
  | [] => some (Config.entropyValue g.freeDraws, { g with freeDraws := g.freeDraws + 1 })
  | none :: _ => none
  | some v :: rest => some (v, { g with answers := rest })

/-- `draw(lo, hi)` (R50), for `lo ≤ hi`: the value and what is left of the random-number state; absent when the entropy
source never answers. -/
def draw (mode : RngMode) (lo hi : Nat) (g : Rng) : Option (Nat × Rng) :=
  match mode with
  | .entropy =>
    match entropyAnswer g with
    | none => none
    | some (v, g') => some (intoRange lo hi v, g')
  | .deterministic =>
    some (lo + (prngStep g.prngState).toNat % (hi - lo + 1), { g with prngState := prngStep g.prngState })

/-! ### The register window -/

/-- The offset of a slot (R30). -/
def regOffset : Reg → Nat
  | .id => 0x00
  | .ctrl => 0x08
  | .status => 0x10
  | .errcode => 0x18
  | .cmd => 0x20
  | .prngState => 0x28
  | .opr .a => 0x30
  | .opr .b => 0x38
  | .opr .c => 0x40
  | .opr .d => 0x48
  | .opr .e => 0x50
  | .res0 => 0x58
  | .res1 => 0x60
  | .res2 => 0x68
  | .reserved70 => 0x70
  | .reserved78 => 0x78

/-- The slot at an offset of the window (R30, R71). -/
def regAt (off : Nat) : Option Reg :=
  match off with
  | 0x00 => some .id
  | 0x08 => some .ctrl
  | 0x10 => some .status
  | 0x18 => some .errcode
  | 0x20 => some .cmd
  | 0x28 => some .prngState
  | 0x30 => some (.opr .a)
  | 0x38 => some (.opr .b)
  | 0x40 => some (.opr .c)
  | 0x48 => some (.opr .d)
  | 0x50 => some (.opr .e)
  | 0x58 => some .res0
  | 0x60 => some .res1
  | 0x68 => some .res2
  | 0x70 => some .reserved70
  | 0x78 => some .reserved78
  | _ => none

/-- The constant ID (R32). -/
def idWord : Word := 0x4547414D00000001

/-- What a read of PRNG_STATE returns (R41): the stored value when idle, a FREE VALUE when busy (log entry 4). -/
def readPrng (s : State) : Word :=
  match s.seq with
  | .idle => s.rng.prngState
  | .busy => Config.busyPrngRead s.busyReads

/-- What a 64-bit read of a slot returns (R30 to R41, R73). -/
def readReg (s : State) : Reg → Word
  | .id => idWord
  | .ctrl => s.ctrlWord
  | .status => s.statusWord
  | .errcode => s.errcodeWord
  | .cmd => s.lastCmd
  | .prngState => readPrng s
  | .opr x => s.op.get x
  | .res0 => s.res0
  | .res1 => s.res1
  | .res2 => s.res2
  | .reserved70 => 0
  | .reserved78 => 0

/-- Whether a read of a slot is answered by a free value (R41, R77). -/
def readIsFree (s : State) (r : Reg) : Bool := decide (r = .prngState) && s.busy

/-- A host read: the value is returned, and nothing of the core changes (R77). -/
def hostRead (r : Reg) (s : State) : State :=
  { s with
    readLog := readReg s r :: s.readLog
    busyReads := if readIsFree s r then s.busyReads + 1 else s.busyReads }

/-- A host write to CMD: acceptance when idle (R37, R100), dropped when busy (R38). -/
def writeCmd (w : Word) (s : State) : State :=
  match s.seq with
  | .idle => accept w s
  | .busy => s.overrun

/-- A host write to PRNG_STATE: stored when idle, dropped when busy (R41). -/
def writePrng (v : Word) (s : State) : State :=
  match s.seq with
  | .idle => { s with rng := { s.rng with prngState := v } }
  | .busy => s.overrun

/-- A host write to a slot; a write to a read-only or reserved slot is ignored (R30 to R41, R73). -/
def hostWrite (r : Reg) (v : Word) (s : State) : State :=
  match r with
  | .id => s
  | .ctrl => s.writeCtrl v
  | .status => s.writeStatus v
  | .errcode => s
  | .cmd => writeCmd v s
  | .prngState => writePrng v s
  | .opr x => { s with op := s.op.set x v }
  | .res0 => s
  | .res1 => s
  | .res2 => s
  | .reserved70 => s
  | .reserved78 => s

/-- The byte address of an access (R71). -/
def accessAddr (a : Access) : Nat := Config.base + a.off

/-- A host access (R71, R72, R73). -/
def hostAccess (a : Access) (s : State) : Result :=
  if Config.windowBytes ≤ a.off then .fault (.outsideWindow (accessAddr a))
  else if a.width ≠ .w64 then .fault (.busError (accessAddr a))
  else
    match regAt a.off with
    | none => .fault (.busError (accessAddr a))
    | some r =>
      match a.kind with
      | .read => .next (hostRead r s)
      | .write v => .next (hostWrite r v s)

/-- What a bus bridge sees of the window: the byte at an offset (R74). -/
def windowByte (s : State) (r : Reg) (lane : Nat) : Byte := (readReg s r).extractLsb' (8 * lane) 8

end Sys2Proof.Machine
end

