-- ==== Sys2Proof/Machine/ModArith.lean ====
section
/-! DEFINITION. Machine/ModArith: the modexp engine and the modular inverse unit (spec/41_modular_arith.md). -/

namespace Sys2Proof.Machine

/-- The loop of the reference algorithm (R143), for the exponent bits below the given position. -/
def modpowLoop (x e n : Nat) : Nat → Nat → Nat
  | 0, r => r
  | i + 1, r =>
    if e.testBit i then modpowLoop x e n i (r * r % n * x % n) else modpowLoop x e n i (r * r % n)

/-- `modpow(b, e, n)` for n ≥ 2 and e < 2^33 (R141), by binary square-and-multiply (R143). -/
def modpow (b e n : Nat) : Nat := modpowLoop (b % n) e n Config.operandWidth 1

/-- The loop of the extended Euclidean algorithm (R152), with a bound on its number of steps. It ends with the greatest
common divisor and its coefficient. -/
def egcdLoop : Nat → Nat → Nat → Int → Int → Nat × Int
  | 0, r0, _, t0, _ => (r0, t0)
  | fuel + 1, r0, r1, t0, t1 =>
    if r1 = 0 then (r0, t0)
    else egcdLoop fuel r1 (r0 - r0 / r1 * r1) t1 (t0 - (r0 / r1 : Nat) * t1)

/-- The bound on the steps of the loop: two for each bit of the operands. -/
def egcdSteps : Nat := 2 * Config.operandWidth

/-- `modinv(a, n)` for n ≥ 2, a < n and gcd(a, n) = 1 (R151), by the extended Euclidean algorithm (R152). -/
def modinv (a n : Nat) : Nat := ((egcdLoop egcdSteps n a 0 1).2 % (n : Int)).toNat

/-- MODPOW (R140). -/
def execModpow (s : State) : Result :=
  let b := s.lop.a.toNat
  let e := s.lop.b.toNat
  let n := s.lop.c.toNat
  if widthOk Instr.modpow.format s.lop = false then fail .invalidArgument s
  else if n < 2 then fail .invalidArgument s
  else finish (modpow b e n) 0 0 s

/-- MODINV (R150). -/
def execModinv (s : State) : Result :=
  let a := s.lop.a.toNat
  let n := s.lop.b.toNat
  if widthOk Instr.modinv.format s.lop = false then fail .invalidArgument s
  else if n < 2 then fail .invalidArgument s
  else if Nat.gcd (a % n) n ≠ 1 then fail .noInverseExists s
  else finish (modinv (a % n) n) 0 0 s

end Sys2Proof.Machine
end

