-- ==== Sys2Proof/Machine/BlockCipher.lean ====
section
/-! DEFINITION. Machine/BlockCipher: the ElGamal block cipher transform (spec/43_block_cipher.md). None of the three
commands checks that p is prime, that g is a primitive root or that the keys belong together (R196). -/

namespace Sys2Proof.Machine

/-- The first check of ENCRYPT that fails, in the order of R104 (R180). -/
def encryptError (s : State) : Option ErrorKind :=
  if widthOk Instr.encrypt.format s.lop = false then some .invalidArgument
  else if s.lop.b.toNat < 3 then some .invalidArgument
  else if seedBad s then some .invalidArgument
  else if s.lop.b.toNat ≤ s.lop.a.toNat then some .blockTooLarge
  else none

/-- The first check of ENCRYPT_R that fails, in the order of R104 (R185). -/
def encryptRError (s : State) : Option ErrorKind :=
  if widthOk Instr.encryptR.format s.lop = false then some .invalidArgument
  else if s.lop.b.toNat < 3 then some .invalidArgument
  else if s.lop.e.toNat < 1 ∨ s.lop.b.toNat - 2 < s.lop.e.toNat then some .invalidArgument
  else if s.lop.b.toNat ≤ s.lop.a.toNat then some .blockTooLarge
  else none

/-- ENCRYPT's one draw, into L_R (R182): r in [1, p − 2] is never 0, so L_R = 0 says that it has not been made yet
(log entry 6). Absent when the entropy source never answers. -/
def drawEphemeral (s : State) : Option State :=
  if s.lR = 0 then
    match draw s.lMode 1 (s.lop.b.toNat - 2) s.rng with
    | none => none
    | some (r, g) => some { s with rng := g, lR := BitVec.ofNat 33 r }
  else some s

/-- ENCRYPT_R's r, from operand E, into L_R (R185). -/
def takeEphemeral (s : State) : State := { s with lR := BitVec.ofNat 33 s.lop.e.toNat }

/-- The two parts of the cipher block, from the latched m, p, g, e2 and the r in L_R; L_R is 0 after completion (R180,
R185). -/
def finishEncryption (s : State) : Result :=
  let m := s.lop.a.toNat
  let p := s.lop.b.toNat
  let g := s.lop.c.toNat
  let e2 := s.lop.d.toNat
  let r := s.lR.toNat
  finish (modpow g r p) (m * modpow e2 r p % p) 0 s

/-- ENCRYPT (R180). -/
def execEncrypt (s : State) : Result :=
  match encryptError s with
  | some e => fail e s
  | none =>
    match drawEphemeral s with
    | none => .fault .entropyNeverAnswers
    | some s1 => finishEncryption s1

/-- ENCRYPT_R (R185): it draws nothing. -/
def execEncryptR (s : State) : Result :=
  match encryptRError s with
  | some e => fail e s
  | none => finishEncryption (takeEphemeral s)

/-- DECRYPT (R190, R191): it draws nothing and does not check d. -/
def execDecrypt (s : State) : Result :=
  let c1 := s.lop.a.toNat
  let c2 := s.lop.b.toNat
  let p := s.lop.c.toNat
  let d := s.lop.d.toNat
  if widthOk Instr.decrypt.format s.lop = false then fail .invalidArgument s
  else if p < 3 then fail .invalidArgument s
  else if c1 = 0 ∨ p ≤ c1 ∨ p ≤ c2 then fail .invalidCipherBlock s
  else if Nat.gcd (modpow c1 d p) p ≠ 1 then fail .noInverseExists s
  else finish (c2 * modinv (modpow c1 d p) p % p) 0 0 s

/-- The sequencer's step, before completion, in which a running ENCRYPT or ENCRYPT_R whose checks all pass gets its r
into L_R (R46, R180, R185). Where it has nothing to do it changes nothing: no such command runs, a check fails, r is
there already, or the entropy source has not answered (log entry 6). -/
def latchEphemeral (s : State) : State :=
  match s.seq with
  | .idle => s
  | .busy =>
    match decode s.lastCmd with
    | .error _ => s
    | .ok .modpow => s
    | .ok .modinv => s
    | .ok .mrtest => s
    | .ok .mrround => s
    | .ok .findprime => s
    | .ok .encrypt =>
      match encryptError s with
      | some _ => s
      | none =>
        match drawEphemeral s with
        | none => s
        | some s1 => s1
    | .ok .encryptR =>
      match encryptRError s with
      | some _ => s
      | none => takeEphemeral s
    | .ok .decrypt => s

end Sys2Proof.Machine
end

