-- ==== Sys2Proof/Machine/Primality.lean ====
section
/-! DEFINITION. Machine/Primality: the Miller-Rabin primality tester (spec/40_primality.md). -/

namespace Sys2Proof.Machine

/-- The largest s such that 2^s divides a number that is not 0, with a bound on its number of bits (R121). -/
def twosIn : Nat → Nat → Nat
  | 0, _ => 0
  | bits + 1, m => if m % 2 = 0 then twosIn bits (m / 2) + 1 else 0

/-- The squarings of a round (R121): whether n − 1 is met within the given number of squarings. -/
def squaringsMeet (n : Nat) : Nat → Nat → Bool
  | 0, _ => false
  | k + 1, x => if x * x % n = n - 1 then true else squaringsMeet n k (x * x % n)

/-- `mr_round(n, a)` for odd n ≥ 5 and 2 ≤ a ≤ n − 2 (R121): true is PASS. -/
def mrRound (n a : Nat) : Bool :=
  let s := twosIn Config.operandWidth (n - 1)
  let t := (n - 1) / 2 ^ s
  let x := modpow a t n
  if x = 1 ∨ x = n - 1 then true else squaringsMeet n (s - 1) x

/-- How a series of rounds ends. -/
inductive RoundsEnd where
  | allPassed
  | witness (base round : Nat)
  deriving DecidableEq, Repr

/-- Rounds on drawn bases, fail-fast (R120, R162): so many rounds to go, the next one's number, the random-number
state. Absent when the entropy source never answers. -/
def mrRounds (mode : RngMode) (n : Nat) : Nat → Nat → Rng → Option (RoundsEnd × Rng)
  | 0, _, g => some (.allPassed, g)
  | k + 1, j, g =>
    match draw mode 2 (n - 2) g with
    | none => none
    | some (a, g1) => if mrRound n a then mrRounds mode n k (j + 1) g1 else some (.witness a j, g1)

/-- MRTEST (R120). It is never replaced by a deterministic test for small n (R124). -/
def execMrtest (s : State) : Result :=
  let n := s.lop.a.toNat
  let k := s.lop.b.toNat
  if widthOk Instr.mrtest.format s.lop = false then fail .invalidArgument s
  else if k < 1 ∨ Config.kMax < k then fail .invalidArgument s
  else if seedBad s then fail .invalidArgument s
  else if n < 2 then finish 0 0 0 s
  else if n = 2 ∨ n = 3 then finish 1 0 0 s
  else if n % 2 = 0 then finish 0 0 0 s
  else
    match mrRounds s.lMode n k 1 s.rng with
    | none => .fault .entropyNeverAnswers
    | some (.allPassed, g) => finish 1 0 k { s with rng := g }
    | some (.witness a j, g) => finish 0 a j { s with rng := g }

/-- MRROUND (R125): it draws nothing and works in either mode with any seed. -/
def execMrround (s : State) : Result :=
  let n := s.lop.a.toNat
  let a := s.lop.b.toNat
  if widthOk Instr.mrround.format s.lop = false then fail .invalidArgument s
  else if n < 5 ∨ n % 2 = 0 then fail .invalidArgument s
  else if a < 2 ∨ n - 2 < a then fail .invalidArgument s
  else if mrRound n a then finish 1 0 1 s
  else finish 0 a 1 s

end Sys2Proof.Machine
end

