-- ==== Sys2Proof/Machine/PrimeSearch.lean ====
section
/-! DEFINITION. Machine/PrimeSearch: the prime/generator search control (spec/42_prime_search.md). -/

namespace Sys2Proof.Machine

/-- Trial division from a divisor on, with a bound on its number of steps: the prime divisors of what is left of the
number. The method is unobservable (R163; DEDUCED, log entry 13). -/
def trialDivide : Nat → Nat → Nat → List Nat
  | 0, _, m => if 1 < m then [m] else []
  | fuel + 1, d, m =>
    if m < d * d then (if 1 < m then [m] else [])
    else if m % d = 0 then d :: trialDivide fuel d (m / d)
    else trialDivide fuel (d + 1) m

/-- The bound on the steps of trial division: enough for every 33-bit number. -/
def trialSteps : Nat := 131072

/-- The prime divisors of a number below 2^33 that is not 0 (R163), some of them perhaps more than once. -/
def primeDivisors (m : Nat) : List Nat := trialDivide trialSteps 2 m

/-- The candidate of a draw u (R161): bits 32 and 0 are 1 and bits 31:1 are u. -/
def candidate (u : Nat) : Nat := 2 ^ 32 + 2 * u + 1

/-- The two acceptance checks of a candidate that passed the primality test (R163): the Fermat check, and 2 to the
(p − 1)/q is not 1 for any prime divisor q of p − 1. -/
def generatorOk (p : Nat) : Bool :=
  decide (modpow Config.gen (p - 1) p = 1) &&
    (primeDivisors (p - 1)).all fun q => decide (modpow Config.gen ((p - 1) / q) p ≠ 1)

/-- How a search ends. -/
inductive SearchEnd where
  | found (p tried : Nat)
  | exhausted
  deriving DecidableEq, Repr

/-- The search, one candidate after another (R160, R167): so many candidates to go, the next one's number, the
random-number state. Absent when the entropy source never answers. -/
def searchPrime (mode : RngMode) (k : Nat) : Nat → Nat → Rng → Option (SearchEnd × Rng)
  | 0, _, g => some (.exhausted, g)
  | left + 1, i, g =>
    match draw mode 0 (2 ^ 31 - 1) g with
    | none => none
    | some (u, g1) =>
      match mrRounds mode (candidate u) k 1 g1 with
      | none => none
      | some (.witness _ _, g2) => searchPrime mode k left (i + 1) g2
      | some (.allPassed, g2) =>
        if generatorOk (candidate u) then some (.found (candidate u) i, g2)
        else searchPrime mode k left (i + 1) g2

/-- FINDPRIME (R160, R166). Its bound N is at most NMAX = 2^33 − 1 (R9) by the width check. -/
def execFindprime (s : State) : Result :=
  let k := s.lop.a.toNat
  let bound := s.lop.b.toNat
  if widthOk Instr.findprime.format s.lop = false then fail .invalidArgument s
  else if k < Config.kGenMin ∨ Config.kMax < k then fail .invalidArgument s
  else if bound < 1 then fail .invalidArgument s
  else if seedBad s then fail .invalidArgument s
  else
    match searchPrime s.lMode k bound 1 s.rng with
    | none => .fault .entropyNeverAnswers
    | some (.found p i, g) => finish p Config.gen i { s with rng := g }
    | some (.exhausted, g) => fail .generationFailed { s with rng := g }

end Sys2Proof.Machine
end

