-- ==== Sys2Proof/Machine/Dispatch.lean ====
section
/-! DEFINITION. Machine/Dispatch: one arm per command, each a call of its meaning. -/

namespace Sys2Proof.Machine

def exec (i : Instr) (s : State) : Host.Outcome State Fault Refusal :=
  match i with
  | .modpow => Sys2Proof.Machine.execModpow s
  | .modinv => Sys2Proof.Machine.execModinv s
  | .mrtest => Sys2Proof.Machine.execMrtest s
  | .mrround => Sys2Proof.Machine.execMrround s
  | .findprime => Sys2Proof.Machine.execFindprime s
  | .encrypt => Sys2Proof.Machine.execEncrypt s
  | .encryptR => Sys2Proof.Machine.execEncryptR s
  | .decrypt => Sys2Proof.Machine.execDecrypt s

end Sys2Proof.Machine
end

