-- ==== Sys2Proof/Machine/Step.lean ====
section
/-! DEFINITION. Machine/Step: one step of the machine: the next move of the host, the sequencer or the reset input. -/

namespace Sys2Proof.Machine

/-- The completion step of the running command, whose word is LASTCMD: its meaning, or IllegalCommand for an illegal
word (R95, R101). -/
def runCommand (s : State) : Host.Outcome State Fault Refusal :=
  match decode s.lastCmd with
  | .ok i => exec i s
  | .error _ => fail .illegalCommand s

/-- The sequencer's turn: it completes the running command; when idle it does nothing (R44, R78, R220). -/
def sequencerTurn (s : State) : Host.Outcome State Fault Refusal :=
  match s.seq with
  | .idle => .next s
  | .busy => runCommand s

/-- One move (R14). -/
def move (e : Event) (s : State) : Host.Outcome State Fault Refusal :=
  match e with
  | .access a => hostAccess a s
  | .complete => sequencerTurn s
  | .latchR => .next (latchEphemeral s)
  | .reset => .next (resetCore s)

/-- One step: the first of the moves to come. When none is left, it is the sequencer's turn: a running command
completes (R245: the sequencer eventually takes its completion step), an idle core waits (R220). Log entries 1 and 18. -/
def step (s : State) : Host.Outcome State Fault Refusal :=
  match s.inputs with
  | [] => sequencerTurn s
  | e :: rest => move e { s with inputs := rest }

/-- The command word is accepted, as by a host write to CMD (R100), and the sequencer's completion is the next move:
the very next step runs the command (log entry 11). -/
def State.withFetchWord (s : State) (nbits w : Nat) : State :=
  { accept (BitVec.ofNat 64 (w % 2 ^ nbits)) s with inputs := .complete :: s.inputs }

end Sys2Proof.Machine
end

