-- ==== Sys2Proof/Machine/HostProgram.lean ====
section
/-! DEFINITION. Machine/HostProgram: the notation for host programs (30_encoding.md R110), as the moves it stands for. The
host's own control flow is the host processor's; only its accesses are written here (log entry 20). -/

namespace Sys2Proof.Machine

/-- The bus transaction of `wr NAME, v` (R110). -/
def writeOf (r : Reg) (v : Word) : Access := ⟨.w64, regOffset r, .write v⟩

/-- The bus transaction of `rd NAME -> t` (R110). The value read is the newest entry of `readLog`. -/
def readOf (r : Reg) : Access := ⟨.w64, regOffset r, .read⟩

/-- The moves of `wait_idle` (R110): reads of STATUS, the command completing before the last. -/
def waitIdleMoves (lat : Nat) : List Event :=
  List.replicate lat (.access (readOf .status)) ++ [.complete, .access (readOf .status)]

/-- The writes of a command's operands in operand order (R93, R110). -/
def operandWrites (f : Format) (args : List Word) : List Event :=
  ((formatOperands f).zip args).map fun p => .access (writeOf (.opr p.1) p.2)

/-- The moves of one line (R110). -/
def lineMoves : HostLine → List Event
  | .wr r v => [.access (writeOf r v)]
  | .rd r => [.access (readOf r)]
  | .waitIdle lat => waitIdleMoves lat
  | .cmd i => [.access (writeOf .cmd (encode i))]
  | .command i args lat =>
    operandWrites i.format args ++ [.access (writeOf .cmd (encode i))] ++ waitIdleMoves lat

/-- The moves of a host program, line after line (R110). -/
def programMoves (lines : List HostLine) : List Event := lines.flatMap lineMoves

end Sys2Proof.Machine
end

