-- ==== Sys2Proof/Safety.lean ====
section
/-! DEFINITION. Safety: the terms in which claims are stated: the states of completion as the spec writes them, the
premises about randomness, the mathematics behind the commands, and the invariant of the machine. -/

namespace Sys2Proof.Machine

/-! ### Completion -/

/-- The state after `finish(r0, r1, r2)` as R205 writes it, everything else kept. -/
def State.finished (s : State) (r0 r1 r2 : Nat) : State :=
  { s with
    res0 := BitVec.ofNat 64 r0
    res1 := BitVec.ofNat 64 r1
    res2 := BitVec.ofNat 64 r2
    errcode := none
    lR := 0
    seq := .idle
    done := true
    irq := s.irqEn }

/-- The state after `fail E` as R206 writes it, everything else kept. -/
def State.failed (s : State) (e : ErrorKind) : State :=
  { s with
    res0 := 0
    res1 := 0
    res2 := 0
    errcode := some e
    lR := 0
    seq := .idle
    done := true
    irq := s.irqEn }

/-- The state after acceptance of a word as R100 writes it, everything else kept. -/
def State.accepted (s : State) (w : Word) : State :=
  { s with
    lastCmd := w
    lop := s.op
    lMode := s.rngMode
    seq := .busy
    done := false
    errcode := none
    irq := false }

/-! ### Premises -/

/-- `fits33` (R12). -/
abbrev Fits (v : Word) : Prop := v.toNat < 2 ^ 33

/-- All operands that a command reads fit 33 bits (R91, R93). -/
def OperandsFit (i : Instr) (s : State) : Prop :=
  match i with
  | .modinv | .mrtest | .mrround | .findprime => Fits s.lop.a ∧ Fits s.lop.b
  | .modpow => Fits s.lop.a ∧ Fits s.lop.b ∧ Fits s.lop.c
  | .encrypt | .decrypt => Fits s.lop.a ∧ Fits s.lop.b ∧ Fits s.lop.c ∧ Fits s.lop.d
  | .encryptR => Fits s.lop.a ∧ Fits s.lop.b ∧ Fits s.lop.c ∧ Fits s.lop.d ∧ Fits s.lop.e

/-- The seed check passes (R53). -/
def SeedOk (s : State) : Prop := s.lMode = .deterministic → s.rng.prngState ≠ 0

/-- The fairness premise on the entropy source (R245): it answers every draw. -/
def AlwaysAnswered (s : State) : Prop := none ∉ s.rng.answers

/-- A command word is illegal (R95). -/
def IllegalWord (w : Word) : Prop :=
  w.extractLsb' 8 56 ≠ 0 ∨ (w.extractLsb' 0 8).toNat = 0 ∨ 9 ≤ (w.extractLsb' 0 8).toNat

/-- The error codes a command can end with (R201). -/
def possibleErrors : Instr → List ErrorKind
  | .modpow => [.invalidArgument]
  | .modinv => [.invalidArgument, .noInverseExists]
  | .mrtest => [.invalidArgument]
  | .mrround => [.invalidArgument]
  | .findprime => [.invalidArgument, .generationFailed]
  | .encrypt => [.invalidArgument, .blockTooLarge]
  | .encryptR => [.invalidArgument, .blockTooLarge]
  | .decrypt => [.invalidArgument, .noInverseExists, .invalidCipherBlock]

/-! ### Draws and the mathematics of the commands -/

/-- A series of draws from one range (R50): the values in order and what is left of the random-number state. -/
inductive Draws (mode : RngMode) (lo hi : Nat) : Rng → List Nat → Rng → Prop where
  | nil (g : Rng) : Draws mode lo hi g [] g
  | cons {g g1 g2 : Rng} {v : Nat} {vs : List Nat} (h : draw mode lo hi g = some (v, g1))
      (t : Draws mode lo hi g1 vs g2) : Draws mode lo hi g (v :: vs) g2

/-- A base passes a Miller-Rabin round, in arithmetic terms (R121): with n − 1 = 2^s · t and t odd, a^t is 1 or
n − 1 modulo n, or one of its first s − 1 repeated squares is n − 1. -/
def StrongPass (n a : Nat) : Prop :=
  ∃ s t, n - 1 = 2 ^ s * t ∧ t % 2 = 1 ∧ (a ^ t % n = 1 ∨ ∃ i < s, a ^ (2 ^ i * t) % n = n - 1)

/-- A prime for which 2 is a primitive root (R160): the multiplicative order of 2 modulo p is p − 1 (R164). -/
def PrimeWithGeneratorTwo (p : Nat) : Prop := p.Prime ∧ orderOf (2 : ZMod p) = p - 1

/-- FINDPRIME draws a candidate, makes its rounds and discards it (R160 to R163): a round fails, or all k rounds pass
and the candidate is not a prime with 2 as a primitive root. -/
def CandidateDiscarded (mode : RngMode) (k : Nat) (g g' : Rng) : Prop :=
  ∃ u g1, draw mode 0 (2 ^ 31 - 1) g = some (u, g1) ∧
    ((∃ bases a, Draws mode 2 (2 ^ 32 + 2 * u + 1 - 2) g1 (bases ++ [a]) g' ∧ bases.length < k ∧
        (∀ b ∈ bases, StrongPass (2 ^ 32 + 2 * u + 1) b) ∧ ¬ StrongPass (2 ^ 32 + 2 * u + 1) a) ∨
      (∃ bases, Draws mode 2 (2 ^ 32 + 2 * u + 1 - 2) g1 bases g' ∧ bases.length = k ∧
        (∀ b ∈ bases, StrongPass (2 ^ 32 + 2 * u + 1) b) ∧ ¬ PrimeWithGeneratorTwo (2 ^ 32 + 2 * u + 1)))

/-- So many candidates in a row are drawn and discarded. -/
inductive Discarded (mode : RngMode) (k : Nat) : Nat → Rng → Rng → Prop where
  | zero (g : Rng) : Discarded mode k 0 g g
  | succ {i : Nat} {g g1 g2 : Rng} (h : Discarded mode k i g g1) (c : CandidateDiscarded mode k g1 g2) :
      Discarded mode k (i + 1) g g2

/-- FINDPRIME draws a candidate p that is a prime with 2 as a primitive root, and makes its k rounds (R165). -/
def CandidateFound (mode : RngMode) (k : Nat) (g : Rng) (p : Nat) (g' : Rng) : Prop :=
  ∃ u g1 bases, draw mode 0 (2 ^ 31 - 1) g = some (u, g1) ∧ p = 2 ^ 32 + 2 * u + 1 ∧
    Draws mode 2 (p - 2) g1 bases g' ∧ bases.length = k ∧ PrimeWithGeneratorTwo p

/-- How many draws a command has made that went from s to t (R42, R53): MRTEST as many as the rounds it reports (R120),
ENCRYPT one if its checks passed and r had not been drawn before (R182), FINDPRIME at least two and at most k + 1 for each
candidate it discarded and k + 1 for the one it returns (R160), none if a check failed, and the other commands none. -/
def DrawCount (i : Instr) (s t : State) (d : Nat) : Prop :=
  match i with
  | .mrtest => d = t.res2.toNat ∧ d ≤ s.lop.b.toNat
  | .encrypt => d = if t.errcode = none ∧ s.lR = 0 then 1 else 0
  | .findprime =>
    (t.errcode = none → 1 ≤ t.res2.toNat ∧ t.res2.toNat ≤ s.lop.b.toNat ∧
      2 * (t.res2.toNat - 1) + (s.lop.a.toNat + 1) ≤ d ∧ d ≤ t.res2.toNat * (s.lop.a.toNat + 1)) ∧
    (t.errcode = some .generationFailed →
      2 * s.lop.b.toNat ≤ d ∧ d ≤ s.lop.b.toNat * (s.lop.a.toNat + 1)) ∧
    (t.errcode = some .invalidArgument → d = 0)
  | .modpow => d = 0
  | .modinv => d = 0
  | .mrround => d = 0
  | .encryptR => d = 0
  | .decrypt => d = 0

/-! ### The invariant -/

/-- The invariant every step keeps. -/
structure State.Inv (s : State) : Prop where
  /-- R210: IRQ = IRQ_EN ∧ DONE. -/
  irqLevel : s.irq = (s.irqEn && s.done)
  /-- R35: DONE and BUSY are never both 1. -/
  doneIdle : s.done = true → s.seq = .idle
  /-- R36: acceptance sets ERRCODE to 0, so it is 0 while a command runs. -/
  busyNoError : s.seq = .busy → s.errcode = none
  /-- R206: with an error reported the results are 0. -/
  errorZero : s.errcode ≠ none → s.res0 = 0 ∧ s.res1 = 0 ∧ s.res2 = 0
  /-- R130: every result fits 33 bits. -/
  resultsFit : Fits s.res0 ∧ Fits s.res1 ∧ Fits s.res2
  /-- R46: L_R holds an r only while a command runs. -/
  ephemeralIdle : s.seq = .idle → s.lR = 0
  /-- R46, R180, R185: an r in L_R belongs to a running ENCRYPT or ENCRYPT_R whose checks passed, and lies in
  [1, p − 2]. -/
  ephemeralRange : s.lR ≠ 0 →
    ((decode s.lastCmd = .ok .encrypt ∧ encryptError s = none) ∨
      (decode s.lastCmd = .ok .encryptR ∧ encryptRError s = none ∧ s.lR.toNat = s.lop.e.toNat)) ∧
    1 ≤ s.lR.toNat ∧ s.lR.toNat ≤ s.lop.b.toNat - 2

/-- A safe move: the host's accesses are well formed (R72). -/
def safeMove : Event → Bool
  | .access a => a.wf
  | .complete => true
  | .latchR => true
  | .reset => true

end Sys2Proof.Machine
end

