-- ==== Sys2Proof/Certificates/Slice0/Obligations.lean ====
section
/-! DEFINITION. Obligations: what is claimed of the model, from the numbered rules of spec/. An equation with a state
written as a record update says the whole frame at once: every field not named keeps its value. EGCORE has no memory of
bytes (R70), so there is no memory frame beside it. -/

open Sys2Proof Sys2Proof.Machine

/-! ### Encoding -/

/-- R92: the eight command words, written out from the opcode map. -/
def Obligations.OpcodeMapWords : Prop :=
  decode 0x0000000000000001#64 = .ok .modpow ∧ decode 0x0000000000000002#64 = .ok .modinv ∧
  decode 0x0000000000000003#64 = .ok .mrtest ∧ decode 0x0000000000000004#64 = .ok .mrround ∧
  decode 0x0000000000000005#64 = .ok .findprime ∧ decode 0x0000000000000006#64 = .ok .encrypt ∧
  decode 0x0000000000000007#64 = .ok .encryptR ∧ decode 0x0000000000000008#64 = .ok .decrypt

/-- R94: the decoder tests bits 63:8 and looks bits 7:0 up; equivalently a word is a command's exactly when it meets
that command's row of the opcode table, whose mask is all ones and whose match is the OPCODE. -/
def Obligations.DecoderFollowsTheOpcodeTable : Prop :=
  (∀ (w : Word) (i : Instr), decode w = .ok i ↔
      w.extractLsb' 8 56 = 0 ∧ instrOfOpcode (w.extractLsb' 0 8) = some i) ∧
  (∀ (w : Word) (i : Instr), decode w = .ok i ↔
      ∃ row ∈ opcodeTable, row.instr = i ∧ w &&& row.mask = row.pattern) ∧
  (∀ row ∈ opcodeTable, row.mask = 0xFFFFFFFFFFFFFFFF#64 ∧ row.pattern.extractLsb' 8 56 = 0 ∧
      instrOfOpcode (row.pattern.extractLsb' 0 8) = some row.instr)

/-- Every command has one word and every legal word one command; the eight byte lanes of a word, lowest address first
(R74), decode as the word. -/
def Obligations.DecodeAndEncodeAgree : Prop :=
  (∀ (w : Word) (i : Instr), decode w = .ok i ↔ w = encode i) ∧
  (∀ w : Word, decodeBytes (lanesOf 8 w.toNat) = decode w)

/-- R95: a word is illegal exactly when it decodes to no command; an illegal word is accepted like any other, with
LASTCMD ← w, and the command then completes with IllegalCommand and RES = 0, reading no operand and drawing nothing. -/
def Obligations.IllegalWordsCompleteWithIllegalCommand : Prop :=
  (∀ w : Word, IllegalWord w ↔ ¬ ∃ i, decode w = .ok i) ∧
  (∀ (s : State) (w : Word) (rest : List Event), IllegalWord w → s.seq = .idle →
    s.inputs = .access ⟨.w64, 0x20, .write w⟩ :: .complete :: rest →
    step s = .next (State.accepted { s with inputs := .complete :: rest } w) ∧
    step (State.accepted { s with inputs := .complete :: rest } w) =
      .next (State.failed (State.accepted { s with inputs := rest } w) .illegalCommand))

/-! ### The step -/

/-- A step is the next move of host, sequencer or reset input (R14, R78). When it is the sequencer's turn (also when
no move is left: log entry 1) and a command runs, the step is the meaning of the command that LASTCMD decodes to; an
idle core does nothing (R220: log entry 18). The other moves are the host's access, the sequencer's early step that gets r
into L_R (log entry 6) and the reset input. -/
def Obligations.StepRunsTheNextMove : Prop :=
  (∀ (s : State) (i : Instr), s.seq = .busy → decode s.lastCmd = .ok i →
    (s.inputs = [] → step s = exec i s) ∧
    (∀ rest, s.inputs = .complete :: rest → step s = exec i { s with inputs := rest })) ∧
  (∀ s : State, s.seq = .idle →
    (s.inputs = [] → step s = .next s) ∧
    (∀ rest, s.inputs = .complete :: rest → step s = .next { s with inputs := rest })) ∧
  (∀ (s : State) (a : Access) (rest : List Event), s.inputs = .access a :: rest →
    step s = hostAccess a { s with inputs := rest }) ∧
  (∀ (s : State) (rest : List Event), s.inputs = .latchR :: rest →
    step s = .next (latchEphemeral { s with inputs := rest })) ∧
  (∀ (s : State) (rest : List Event), s.inputs = .reset :: rest →
    step s = .next (resetCore { s with inputs := rest }))

/-- A word that `withFetchWord` places is run by the very next step, as after its acceptance (R100; log entry 11). -/
def Obligations.PlacedWordRunsNext : Prop :=
  ∀ (s : State) (i : Instr),
    step (s.withFetchWord 64 (encode i).toNat) = exec i (s.accepted (encode i))

/-- R100, R38: a write to CMD is acceptance when idle, and is dropped and sets OVR when busy. -/
def Obligations.CmdWriteAcceptsOrIsDropped : Prop :=
  ∀ (s : State) (w : Word) (rest : List Event), s.inputs = .access ⟨.w64, 0x20, .write w⟩ :: rest →
    (s.seq = .idle → step s = .next { s with
      lastCmd := w, lop := s.op, lMode := s.rngMode, seq := .busy, done := false, errcode := none, irq := false,
      inputs := rest }) ∧
    (s.seq = .busy → step s = .next { s with ovr := true, inputs := rest })

/-! ### The register window -/

/-- R30, R32, R36, R37, R39, R40, R73, R77: what a 64-bit read returns at every offset whose value STATUS, CTRL and
PRNG_STATE do not enter, and that it changes nothing else. -/
def Obligations.WindowReads : Prop :=
  ∀ s : State,
    hostAccess ⟨.w64, 0x00, .read⟩ s = .next { s with readLog := 0x4547414D00000001#64 :: s.readLog } ∧
    hostAccess ⟨.w64, 0x18, .read⟩ s = .next { s with
      readLog := BitVec.ofNat 64 (match s.errcode with
        | none => 0
        | some .invalidArgument => 1
        | some .noInverseExists => 2
        | some .blockTooLarge => 3
        | some .invalidCipherBlock => 4
        | some .generationFailed => 5
        | some .illegalCommand => 6) :: s.readLog } ∧
    hostAccess ⟨.w64, 0x20, .read⟩ s = .next { s with readLog := s.lastCmd :: s.readLog } ∧
    hostAccess ⟨.w64, 0x30, .read⟩ s = .next { s with readLog := s.op.a :: s.readLog } ∧
    hostAccess ⟨.w64, 0x38, .read⟩ s = .next { s with readLog := s.op.b :: s.readLog } ∧
    hostAccess ⟨.w64, 0x40, .read⟩ s = .next { s with readLog := s.op.c :: s.readLog } ∧
    hostAccess ⟨.w64, 0x48, .read⟩ s = .next { s with readLog := s.op.d :: s.readLog } ∧
    hostAccess ⟨.w64, 0x50, .read⟩ s = .next { s with readLog := s.op.e :: s.readLog } ∧
    hostAccess ⟨.w64, 0x58, .read⟩ s = .next { s with readLog := s.res0 :: s.readLog } ∧
    hostAccess ⟨.w64, 0x60, .read⟩ s = .next { s with readLog := s.res1 :: s.readLog } ∧
    hostAccess ⟨.w64, 0x68, .read⟩ s = .next { s with readLog := s.res2 :: s.readLog } ∧
    hostAccess ⟨.w64, 0x70, .read⟩ s = .next { s with readLog := 0 :: s.readLog } ∧
    hostAccess ⟨.w64, 0x78, .read⟩ s = .next { s with readLog := 0 :: s.readLog }

/-- R33, R34, R35: the bits that a read of CTRL and a read of STATUS return. -/
def Obligations.CtrlAndStatusBits : Prop :=
  ∀ s : State, ∃ c v : Word,
    hostAccess ⟨.w64, 0x08, .read⟩ s = .next { s with readLog := c :: s.readLog } ∧
    hostAccess ⟨.w64, 0x10, .read⟩ s = .next { s with readLog := v :: s.readLog } ∧
    (c.getLsbD 0 = true ↔ s.rngMode = .deterministic) ∧ c.getLsbD 1 = s.irqEn ∧
    (∀ n, 2 ≤ n → c.getLsbD n = false) ∧
    (v.getLsbD 0 = true ↔ s.seq = .busy) ∧ v.getLsbD 1 = s.done ∧
    (v.getLsbD 2 = true ↔ s.errcode ≠ none) ∧ v.getLsbD 3 = s.ovr ∧
    (v.getLsbD 4 = true ↔ s.rngMode = .deterministic) ∧ (∀ n, 5 ≤ n → v.getLsbD n = false)

/-- R41: PRNG_STATE is stored and read when idle; when busy a write is dropped and sets OVR, and a read returns some
64-bit value, about which nothing is claimed (a free value, log entry 4). -/
def Obligations.PrngStateAccess : Prop :=
  ∀ (s : State) (x : Word),
    (s.seq = .idle →
      hostAccess ⟨.w64, 0x28, .write x⟩ s = .next { s with rng := { s.rng with prngState := x } } ∧
      hostAccess ⟨.w64, 0x28, .read⟩ s = .next { s with readLog := s.rng.prngState :: s.readLog }) ∧
    (s.seq = .busy →
      hostAccess ⟨.w64, 0x28, .write x⟩ s = .next { s with ovr := true } ∧
      ∃ v, hostAccess ⟨.w64, 0x28, .read⟩ s =
        .next { s with readLog := v :: s.readLog, busyReads := s.busyReads + 1 })

/-- R73 (and R32, R36, R40): at 0x70 and 0x78 a read returns 0 and a write is ignored, with no bus error; a write to a
read-only register is ignored. -/
def Obligations.ReservedOffsetsAndReadOnlyWrites : Prop :=
  ∀ (s : State) (x : Word),
    (∀ off, off = 0x70 ∨ off = 0x78 →
      hostAccess ⟨.w64, off, .read⟩ s = .next { s with readLog := 0 :: s.readLog } ∧
      hostAccess ⟨.w64, off, .write x⟩ s = .next s) ∧
    (∀ off, off = 0x00 ∨ off = 0x18 ∨ off = 0x58 ∨ off = 0x60 ∨ off = 0x68 →
      hostAccess ⟨.w64, off, .write x⟩ s = .next s)

/-- R33, R210: a write to CTRL, in any state of the sequencer, stores bits 1:0, and IRQ follows IRQ_EN at once; the
running command's latched mode is unchanged, and CTRL then reads as bits 1:0 of the value. -/
def Obligations.CtrlWriteStoresTwoBits : Prop :=
  ∀ (s : State) (x : Word), ∃ t, hostAccess ⟨.w64, 0x08, .write x⟩ s = .next t ∧
    t = { s with
      rngMode := if x.getLsbD 0 then .deterministic else .entropy
      irqEn := x.getLsbD 1
      irq := x.getLsbD 1 && s.done } ∧
    readReg t .ctrl = x &&& 3#64

/-- R34, R210, R213: a write to STATUS clears DONE and OVR where bits 1 and 3 are 1, IRQ follows DONE, and nothing else
changes; in particular every other bit of STATUS reads as before. -/
def Obligations.StatusWriteClearsOnes : Prop :=
  ∀ (s : State) (x : Word), ∃ t, hostAccess ⟨.w64, 0x10, .write x⟩ s = .next t ∧
    t = { s with
      done := s.done && !x.getLsbD 1
      ovr := s.ovr && !x.getLsbD 3
      irq := s.irqEn && (s.done && !x.getLsbD 1) } ∧
    readReg t .status = readReg s .status &&& ~~~(x &&& 0xA#64)

/-- R39: a write to an operand register stores the whole value, in any state of the sequencer, and leaves the latched
copies as they are. -/
def Obligations.OperandWritesStore : Prop :=
  ∀ (s : State) (x : Word),
    hostAccess ⟨.w64, 0x30, .write x⟩ s = .next { s with op := { s.op with a := x } } ∧
    hostAccess ⟨.w64, 0x38, .write x⟩ s = .next { s with op := { s.op with b := x } } ∧
    hostAccess ⟨.w64, 0x40, .write x⟩ s = .next { s with op := { s.op with c := x } } ∧
    hostAccess ⟨.w64, 0x48, .write x⟩ s = .next { s with op := { s.op with d := x } } ∧
    hostAccess ⟨.w64, 0x50, .write x⟩ s = .next { s with op := { s.op with e := x } }

/-- R72: in the window, an access of another width than 64 bits or at an offset that is no multiple of 8 gets a bus
error with its address, and every other access is answered. -/
def Obligations.BusErrorsExactly : Prop :=
  ∀ (s : State) (a : Access), a.off < 128 →
    (¬ (a.width = .w64 ∧ a.off % 8 = 0) → hostAccess a s = .fault (.busError (Config.base + a.off))) ∧
    (a.width = .w64 ∧ a.off % 8 = 0 → ∃ t, hostAccess a s = .next t)

/-! ### Reset -/

/-- R55: the reset values, and what every register reads after reset. -/
def Obligations.ResetValues : Prop :=
  State.reset.rngMode = .entropy ∧ State.reset.irqEn = false ∧ State.reset.done = false ∧
  State.reset.ovr = false ∧ State.reset.errcode = none ∧ State.reset.lastCmd = 0 ∧
  State.reset.rng.prngState = 0 ∧ State.reset.op = ⟨0, 0, 0, 0, 0⟩ ∧ State.reset.res0 = 0 ∧
  State.reset.res1 = 0 ∧ State.reset.res2 = 0 ∧ State.reset.seq = .idle ∧
  State.reset.lop = ⟨0, 0, 0, 0, 0⟩ ∧ State.reset.lMode = .entropy ∧ State.reset.lR = 0 ∧
  State.reset.irq = false ∧
  (∀ r : Reg, r ≠ .id → readReg State.reset r = 0) ∧ readReg State.reset .id = 0x4547414D00000001#64

/-- R230: the reset input, at any time, puts the spec's state at its reset values; a running command is abandoned. That
the environment's part (moves and answers to come, counters, what was read) is kept is the model's (log entry 10). -/
def Obligations.ResetInputAbandonsTheCommand : Prop :=
  ∀ (s : State) (rest : List Event), s.inputs = .reset :: rest →
    step s = .next { State.reset with
      rng := ⟨0, s.rng.answers, s.rng.freeDraws⟩
      busyReads := s.busyReads
      readLog := s.readLog
      inputs := rest }

/-! ### Invariants and rules of the whole machine -/

/-- The invariant holds at reset. -/
def Obligations.ResetMeetsTheInvariant : Prop := State.reset.Inv

/-- Every step keeps the invariant (R35, R36, R46, R130, R206, R210). -/
def Obligations.EveryStepKeepsTheInvariant : Prop :=
  ∀ s t : State, s.Inv → step s = .next t → t.Inv

/-- R44: SEQ goes from IDLE to BUSY exactly at acceptance, and from BUSY to IDLE exactly at completion or reset.
Completion is a step at the sequencer's turn; that it is also the sequencer's turn when no move is left is the model's choice
(log entry 1). -/
def Obligations.SequencerChangesInTwoWaysOnly : Prop :=
  ∀ s t : State, step s = .next t →
    (s.seq = .idle → (t.seq = .busy ↔ ∃ w rest, s.inputs = .access ⟨.w64, 0x20, .write w⟩ :: rest)) ∧
    (s.seq = .busy → (t.seq = .idle ↔
      (s.inputs = [] ∨ ∃ rest, s.inputs = .complete :: rest) ∨ ∃ rest, s.inputs = .reset :: rest))

/-- R205, R206: a command that completes does so in one step that writes the results, ERRCODE, L_R, SEQ, DONE and IRQ,
and leaves everything else but the random-number state as it was. -/
def Obligations.CompletionIsOneAtomicStep : Prop :=
  ∀ (i : Instr) (s t : State), exec i s = .next t →
    (∃ r0 r1 r2, t = { s with
      rng := t.rng, res0 := r0, res1 := r1, res2 := r2, errcode := none, lR := 0, seq := .idle, done := true,
      irq := s.irqEn }) ∨
    (∃ e, t = { s with
      rng := t.rng, res0 := 0, res1 := 0, res2 := 0, errcode := some e, lR := 0, seq := .idle, done := true,
      irq := s.irqEn })

/-- R201: which command can end with which error code, and that it can; an illegal word ends with IllegalCommand
only. -/
def Obligations.ErrorCodesOfEachCommand : Prop :=
  (∀ (i : Instr) (e : ErrorKind), (∃ s t, exec i s = .next t ∧ t.errcode = some e) ↔ e ∈ possibleErrors i) ∧
  (∀ s : State, IllegalWord s.lastCmd → ∃ t, runCommand s = .next t ∧ t.errcode = some .illegalCommand)

/-- R40, R36 (and R79): RES0 to RES2 change only at completion or reset, and ERRCODE only at completion, acceptance or
reset. -/
def Obligations.ResultsChangeOnlyAtCompletion : Prop :=
  ∀ s t : State, step s = .next t →
    ((t.res0 = s.res0 ∧ t.res1 = s.res1 ∧ t.res2 = s.res2) ∨
      (s.seq = .busy ∧ (s.inputs = [] ∨ ∃ rest, s.inputs = .complete :: rest)) ∨
      ∃ rest, s.inputs = .reset :: rest) ∧
    (t.errcode = s.errcode ∨
      (s.seq = .busy ∧ (s.inputs = [] ∨ ∃ rest, s.inputs = .complete :: rest)) ∨
      (s.seq = .idle ∧ ∃ w rest, s.inputs = .access ⟨.w64, 0x20, .write w⟩ :: rest) ∨
      ∃ rest, s.inputs = .reset :: rest)

/-- R214: a write to CMD or PRNG_STATE dropped because the core is busy sets OVR and changes nothing else, so it raises
no interrupt and sets no error code; nothing else sets OVR; exactly a write of 1 to STATUS bit 3 or a reset clears it. -/
def Obligations.OverrunIsSticky : Prop :=
  ∀ s t : State, step s = .next t →
    (s.seq = .busy → ∀ x rest,
      s.inputs = .access ⟨.w64, 0x20, .write x⟩ :: rest ∨ s.inputs = .access ⟨.w64, 0x28, .write x⟩ :: rest →
      t = { s with ovr := true, inputs := rest }) ∧
    (s.ovr = false → t.ovr = true → s.seq = .busy ∧ ∃ x rest,
      s.inputs = .access ⟨.w64, 0x20, .write x⟩ :: rest ∨ s.inputs = .access ⟨.w64, 0x28, .write x⟩ :: rest) ∧
    (s.ovr = true → (t.ovr = false ↔
      (∃ x rest, s.inputs = .access ⟨.w64, 0x10, .write x⟩ :: rest ∧ x.getLsbD 3 = true) ∨
      ∃ rest, s.inputs = .reset :: rest))

/-! ### Draws and the random-number state -/

/-- R50, R51: every draw lies in its range; in deterministic mode it is the value of the formula and advances PRNG_STATE
once; in entropy mode every value of the range is possible, and PRNG_STATE is unchanged. -/
def Obligations.DrawsStayInTheirRange : Prop :=
  ∀ (lo hi : Nat) (g : Rng), lo ≤ hi →
    (∀ mode v g', draw mode lo hi g = some (v, g') → lo ≤ v ∧ v ≤ hi) ∧
    draw .deterministic lo hi g =
      some (lo + (prngStep g.prngState).toNat % (hi - lo + 1), { g with prngState := prngStep g.prngState }) ∧
    (∀ v, lo ≤ v → v ≤ hi → ∀ rest, draw .entropy lo hi { g with answers := some v :: rest } =
      some (v, { g with answers := rest })) ∧
    (∀ v g', draw .entropy lo hi g = some (v, g') → g'.prngState = g.prngState)

/-- R52 and 93 K1: the PRNG step is the three xorshifts 13, 7, 17 of 64-bit values (in arithmetic on numbers), and maps
different states to different states; so 0, which it maps to 0, is reached from no other state. -/
def Obligations.PrngStepIsAnInjectiveXorshift : Prop :=
  (∀ x : Word, ∃ y z : Nat, y = x.toNat ^^^ (x.toNat * 2 ^ 13 % 2 ^ 64) ∧ z = y ^^^ (y / 2 ^ 7) ∧
    (prngStep x).toNat = z ^^^ (z * 2 ^ 17 % 2 ^ 64)) ∧
  prngStep 0 = 0 ∧ (∀ x y : Word, prngStep x = prngStep y → x = y)

/-- R42: in entropy mode a command neither writes nor reads PRNG_STATE; in deterministic mode it advances PRNG_STATE once
for each of its draws, whose number `DrawCount` says or bounds (none when a check fails), and asks the entropy source for
nothing; a command that never draws (R53) changes neither. An r that ENCRYPT holds already was drawn before (log entry 6). -/
def Obligations.RandomStateFrame : Prop :=
  ∀ (i : Instr) (s t : State), exec i s = .next t →
    (s.lMode = .entropy → t.rng.prngState = s.rng.prngState ∧
      ∀ x, exec i { s with rng := { s.rng with prngState := x } } =
        .next { t with rng := { t.rng with prngState := x } }) ∧
    (s.lMode = .deterministic → ∃ d, DrawCount i s t d ∧
      t.rng = { s.rng with prngState := prngStep^[d] s.rng.prngState }) ∧
    (i = .modpow ∨ i = .modinv ∨ i = .mrround ∨ i = .encryptR ∨ i = .decrypt → t.rng = s.rng)

/-- R53: with L_MODE = 1 and PRNG_STATE = 0 a command that may draw fails with InvalidArgument; a command that never
draws gives the same results whatever the random-number state is. -/
def Obligations.ZeroSeedIsRejected : Prop :=
  (∀ (i : Instr) (s : State), i = .mrtest ∨ i = .findprime ∨ i = .encrypt → s.lMode = .deterministic →
    s.rng.prngState = 0 → exec i s = .next (s.failed .invalidArgument)) ∧
  (∀ (i : Instr) (s : State) (g : Rng), i = .modpow ∨ i = .modinv ∨ i = .mrround ∨ i = .encryptR ∨ i = .decrypt →
    ∃ t, exec i s = .next t ∧ exec i { s with rng := g } = .next { t with rng := g })

/-! ### The commands' results -/

/-- R140: MODPOW and its command word. -/
def Obligations.ModpowResult : Prop :=
  decode 0x0000000000000001#64 = .ok .modpow ∧ ∀ s : State,
    (OperandsFit .modpow s → 2 ≤ s.lop.c.toNat →
      exec .modpow s = .next (s.finished (s.lop.a.toNat ^ s.lop.b.toNat % s.lop.c.toNat) 0 0)) ∧
    (¬ OperandsFit .modpow s ∨ s.lop.c.toNat < 2 → exec .modpow s = .next (s.failed .invalidArgument))

/-- R150, R151: MODINV and its command word. -/
def Obligations.ModinvResult : Prop :=
  decode 0x0000000000000002#64 = .ok .modinv ∧ ∀ s : State,
    (OperandsFit .modinv s → 2 ≤ s.lop.b.toNat →
      Nat.gcd (s.lop.a.toNat % s.lop.b.toNat) s.lop.b.toNat = 1 →
      ∃ x, 1 ≤ x ∧ x ≤ s.lop.b.toNat - 1 ∧ s.lop.a.toNat % s.lop.b.toNat * x % s.lop.b.toNat = 1 ∧
        (∀ y, 1 ≤ y → y ≤ s.lop.b.toNat - 1 → s.lop.a.toNat % s.lop.b.toNat * y % s.lop.b.toNat = 1 → y = x) ∧
        exec .modinv s = .next (s.finished x 0 0)) ∧
    (OperandsFit .modinv s → 2 ≤ s.lop.b.toNat →
      Nat.gcd (s.lop.a.toNat % s.lop.b.toNat) s.lop.b.toNat ≠ 1 →
      exec .modinv s = .next (s.failed .noInverseExists)) ∧
    (¬ OperandsFit .modinv s ∨ s.lop.b.toNat < 2 → exec .modinv s = .next (s.failed .invalidArgument))

/-- R125 (with R121): MRROUND and its command word. -/
def Obligations.MrroundResult : Prop :=
  decode 0x0000000000000004#64 = .ok .mrround ∧ ∀ s : State,
    (OperandsFit .mrround s → 5 ≤ s.lop.a.toNat → s.lop.a.toNat % 2 = 1 →
      2 ≤ s.lop.b.toNat → s.lop.b.toNat ≤ s.lop.a.toNat - 2 →
      (StrongPass s.lop.a.toNat s.lop.b.toNat → exec .mrround s = .next (s.finished 1 0 1)) ∧
      (¬ StrongPass s.lop.a.toNat s.lop.b.toNat → exec .mrround s = .next (s.finished 0 s.lop.b.toNat 1))) ∧
    (¬ OperandsFit .mrround s ∨ s.lop.a.toNat < 5 ∨ s.lop.a.toNat % 2 = 0 ∨ s.lop.b.toNat < 2 ∨
        s.lop.a.toNat - 2 < s.lop.b.toNat →
      exec .mrround s = .next (s.failed .invalidArgument))

/-- R120 (with R121, R123): MRTEST, in terms of the bases that are drawn. The trivial answers come without a draw; the
rounds stop at the first base that fails. -/
def Obligations.MrtestResult : Prop :=
  decode 0x0000000000000003#64 = .ok .mrtest ∧ ∀ s : State,
    (¬ OperandsFit .mrtest s ∨ s.lop.b.toNat < 1 ∨ 255 < s.lop.b.toNat ∨ ¬ SeedOk s →
      exec .mrtest s = .next (s.failed .invalidArgument)) ∧
    (OperandsFit .mrtest s → 1 ≤ s.lop.b.toNat → s.lop.b.toNat ≤ 255 → SeedOk s →
      (s.lop.a.toNat < 2 → exec .mrtest s = .next (s.finished 0 0 0)) ∧
      (s.lop.a.toNat = 2 ∨ s.lop.a.toNat = 3 → exec .mrtest s = .next (s.finished 1 0 0)) ∧
      (4 ≤ s.lop.a.toNat → s.lop.a.toNat % 2 = 0 → exec .mrtest s = .next (s.finished 0 0 0)) ∧
      (5 ≤ s.lop.a.toNat → s.lop.a.toNat % 2 = 1 →
        (∀ bases g, Draws s.lMode 2 (s.lop.a.toNat - 2) s.rng bases g → bases.length = s.lop.b.toNat →
          (∀ b ∈ bases, StrongPass s.lop.a.toNat b) →
          exec .mrtest s = .next (State.finished { s with rng := g } 1 0 s.lop.b.toNat)) ∧
        (∀ bases a g, Draws s.lMode 2 (s.lop.a.toNat - 2) s.rng (bases ++ [a]) g → bases.length < s.lop.b.toNat →
          (∀ b ∈ bases, StrongPass s.lop.a.toNat b) → ¬ StrongPass s.lop.a.toNat a →
          exec .mrtest s = .next (State.finished { s with rng := g } 0 a (bases.length + 1)))))

/-- R120, R101: with legal operands and every draw answered, MRTEST gives a verdict after at most k rounds, and changes
nothing but what completion writes and the random-number state. -/
def Obligations.MrtestGivesAVerdict : Prop :=
  ∀ s : State, OperandsFit .mrtest s → 1 ≤ s.lop.b.toNat → s.lop.b.toNat ≤ 255 → SeedOk s → AlwaysAnswered s →
    ∃ verdict witness rounds g, exec .mrtest s = .next (State.finished { s with rng := g } verdict witness rounds) ∧
      rounds ≤ s.lop.b.toNat ∧
      ((verdict = 1 ∧ witness = 0) ∨ (verdict = 0 ∧ witness = 0 ∧ rounds = 0) ∨
        (verdict = 0 ∧ 2 ≤ witness ∧ witness ≤ s.lop.a.toNat - 2 ∧ 1 ≤ rounds ∧
          ¬ StrongPass s.lop.a.toNat witness))

/-- R122: a prime passes every round, whatever the base, and MRTEST never gives verdict 0 for it, whatever the draws. -/
def Obligations.PrimesAreNeverDeclaredComposite : Prop :=
  (∀ s : State, OperandsFit .mrround s → s.lop.a.toNat.Prime → 5 ≤ s.lop.a.toNat →
    2 ≤ s.lop.b.toNat → s.lop.b.toNat ≤ s.lop.a.toNat - 2 → exec .mrround s = .next (s.finished 1 0 1)) ∧
  (∀ s t : State, s.lop.a.toNat.Prime → exec .mrtest s = .next t → t.errcode = none → t.res0 = 1 ∧ t.res1 = 0)

/-- R160, R165, R166: FINDPRIME, in terms of the candidates that are drawn: the first one that is a prime with 2 as a
primitive root is the result, with the number of candidates tried; when all N are discarded it is GenerationFailed. -/
def Obligations.FindprimeReturnsTheFirst : Prop :=
  decode 0x0000000000000005#64 = .ok .findprime ∧ ∀ s : State,
    (¬ OperandsFit .findprime s ∨ s.lop.a.toNat < 20 ∨ 255 < s.lop.a.toNat ∨ s.lop.b.toNat < 1 ∨ ¬ SeedOk s →
      exec .findprime s = .next (s.failed .invalidArgument)) ∧
    (OperandsFit .findprime s → 20 ≤ s.lop.a.toNat → s.lop.a.toNat ≤ 255 → 1 ≤ s.lop.b.toNat → SeedOk s →
      (∀ i g1 p g2, i < s.lop.b.toNat → Discarded s.lMode s.lop.a.toNat i s.rng g1 →
        CandidateFound s.lMode s.lop.a.toNat g1 p g2 →
        exec .findprime s = .next (State.finished { s with rng := g2 } p 2 (i + 1))) ∧
      (∀ g, Discarded s.lMode s.lop.a.toNat s.lop.b.toNat s.rng g →
        exec .findprime s = .next (State.failed { s with rng := g } .generationFailed)))

/-- R164, R161: with legal operands and every draw answered FINDPRIME ends, and what it returns is a prime p of 33 bits
with 2 a primitive root of it, whatever the draws; otherwise it is GenerationFailed. -/
def Obligations.FindprimeOutputIsPrimeWithGeneratorTwo : Prop :=
  ∀ s : State, OperandsFit .findprime s → 20 ≤ s.lop.a.toNat → s.lop.a.toNat ≤ 255 → 1 ≤ s.lop.b.toNat →
    SeedOk s → AlwaysAnswered s →
    (∃ p tried g, exec .findprime s = .next (State.finished { s with rng := g } p 2 tried) ∧
      p.Prime ∧ orderOf (2 : ZMod p) = p - 1 ∧ 2 ^ 32 + 1 ≤ p ∧ p ≤ 2 ^ 33 - 1 ∧
      1 ≤ tried ∧ tried ≤ s.lop.b.toNat) ∨
    (∃ g, exec .findprime s = .next (State.failed { s with rng := g } .generationFailed))

/-- R180 (with R181, R182): ENCRYPT, which makes its one draw r when all checks have passed. It has not been made while
L_R is 0. -/
def Obligations.EncryptResult : Prop :=
  decode 0x0000000000000006#64 = .ok .encrypt ∧ ∀ s : State,
    (¬ OperandsFit .encrypt s ∨ s.lop.b.toNat < 3 ∨ ¬ SeedOk s →
      exec .encrypt s = .next (s.failed .invalidArgument)) ∧
    (OperandsFit .encrypt s → 3 ≤ s.lop.b.toNat → SeedOk s → s.lop.b.toNat ≤ s.lop.a.toNat →
      exec .encrypt s = .next (s.failed .blockTooLarge)) ∧
    (OperandsFit .encrypt s → 3 ≤ s.lop.b.toNat → SeedOk s → s.lop.a.toNat < s.lop.b.toNat →
      (s.lR = 0 → AlwaysAnswered s → ∃ r g, draw s.lMode 1 (s.lop.b.toNat - 2) s.rng = some (r, g) ∧
        1 ≤ r ∧ r ≤ s.lop.b.toNat - 2) ∧
      (s.lR = 0 → ∀ r g, draw s.lMode 1 (s.lop.b.toNat - 2) s.rng = some (r, g) →
        exec .encrypt s = .next (State.finished { s with rng := g } (s.lop.c.toNat ^ r % s.lop.b.toNat)
          (s.lop.a.toNat * (s.lop.d.toNat ^ r % s.lop.b.toNat) % s.lop.b.toNat) 0)))

/-- The model's choice of log entry 6: an r that ENCRYPT drew before completion (R46) is the one it uses, and it draws no
other. -/
def Obligations.EncryptUsesTheEphemeralItHolds : Prop :=
  ∀ s : State, OperandsFit .encrypt s → 3 ≤ s.lop.b.toNat → SeedOk s → s.lop.a.toNat < s.lop.b.toNat → s.lR ≠ 0 →
    exec .encrypt s = .next (s.finished (s.lop.c.toNat ^ s.lR.toNat % s.lop.b.toNat)
      (s.lop.a.toNat * (s.lop.d.toNat ^ s.lR.toNat % s.lop.b.toNat) % s.lop.b.toNat) 0)

/-- R185: ENCRYPT_R and its command word. -/
def Obligations.EncryptRResult : Prop :=
  decode 0x0000000000000007#64 = .ok .encryptR ∧ ∀ s : State,
    (¬ OperandsFit .encryptR s ∨ s.lop.b.toNat < 3 ∨ s.lop.e.toNat < 1 ∨ s.lop.b.toNat - 2 < s.lop.e.toNat →
      exec .encryptR s = .next (s.failed .invalidArgument)) ∧
    (OperandsFit .encryptR s → 3 ≤ s.lop.b.toNat → 1 ≤ s.lop.e.toNat → s.lop.e.toNat ≤ s.lop.b.toNat - 2 →
      (s.lop.b.toNat ≤ s.lop.a.toNat → exec .encryptR s = .next (s.failed .blockTooLarge)) ∧
      (s.lop.a.toNat < s.lop.b.toNat →
        exec .encryptR s = .next (s.finished (s.lop.c.toNat ^ s.lop.e.toNat % s.lop.b.toNat)
          (s.lop.a.toNat * (s.lop.d.toNat ^ s.lop.e.toNat % s.lop.b.toNat) % s.lop.b.toNat) 0)))

/-- R190 (with R151): DECRYPT and its command word. -/
def Obligations.DecryptResult : Prop :=
  decode 0x0000000000000008#64 = .ok .decrypt ∧ ∀ s : State,
    (¬ OperandsFit .decrypt s ∨ s.lop.c.toNat < 3 → exec .decrypt s = .next (s.failed .invalidArgument)) ∧
    (OperandsFit .decrypt s → 3 ≤ s.lop.c.toNat →
      (s.lop.a.toNat = 0 ∨ s.lop.c.toNat ≤ s.lop.a.toNat ∨ s.lop.c.toNat ≤ s.lop.b.toNat →
        exec .decrypt s = .next (s.failed .invalidCipherBlock)) ∧
      (1 ≤ s.lop.a.toNat → s.lop.a.toNat < s.lop.c.toNat → s.lop.b.toNat < s.lop.c.toNat →
        (Nat.gcd (s.lop.a.toNat ^ s.lop.d.toNat % s.lop.c.toNat) s.lop.c.toNat ≠ 1 →
          exec .decrypt s = .next (s.failed .noInverseExists)) ∧
        (Nat.gcd (s.lop.a.toNat ^ s.lop.d.toNat % s.lop.c.toNat) s.lop.c.toNat = 1 →
          ∃ sInv, 1 ≤ sInv ∧ sInv ≤ s.lop.c.toNat - 1 ∧
            s.lop.a.toNat ^ s.lop.d.toNat % s.lop.c.toNat * sInv % s.lop.c.toNat = 1 ∧
            exec .decrypt s = .next (s.finished (s.lop.b.toNat * sInv % s.lop.c.toNat) 0 0))))

/-- R195: decryption undoes encryption, for a prime p, any g that p does not divide, any d, e2 = g^d mod p, every m below
p and every r in [1, p − 2], given by the host or drawn. -/
def Obligations.EncryptionRoundTrip : Prop :=
  ∀ p g d e2 m : Nat, p.Prime → 3 ≤ p → p < 2 ^ 33 → g < 2 ^ 33 → g % p ≠ 0 → d < 2 ^ 33 → e2 = g ^ d % p → m < p →
    ∀ s u : State, s.lop.a.toNat = m → s.lop.b.toNat = p → s.lop.c.toNat = g → s.lop.d.toNat = e2 →
      u.lop.c.toNat = p → u.lop.d.toNat = d →
      (1 ≤ s.lop.e.toNat → s.lop.e.toNat ≤ p - 2 →
        ∃ c1 c2, c1 < p ∧ c2 < p ∧ exec .encryptR s = .next (s.finished c1 c2 0) ∧
          (u.lop.a.toNat = c1 → u.lop.b.toNat = c2 → exec .decrypt u = .next (u.finished m 0 0))) ∧
      (SeedOk s → AlwaysAnswered s → s.lR = 0 →
        ∃ c1 c2 g', c1 < p ∧ c2 < p ∧ exec .encrypt s = .next (State.finished { s with rng := g' } c1 c2 0) ∧
          (u.lop.a.toNat = c1 → u.lop.b.toNat = c2 → exec .decrypt u = .next (u.finished m 0 0)))

/-- R198: with g a primitive root of a prime p, encryptions with different r give different c1: two ENCRYPTs whose draws
differ, and two ENCRYPT_Rs whose operands r differ. -/
def Obligations.DifferentEphemeralsDifferentCiphers : Prop :=
  ∀ s u : State, s.lop.b.toNat.Prime → orderOf ((s.lop.c.toNat : ZMod s.lop.b.toNat)) = s.lop.b.toNat - 1 →
    u.lop.b = s.lop.b → u.lop.c = s.lop.c →
    (s.lR = 0 → u.lR = 0 → ∀ (r r' : Nat) (g g' : Rng),
      draw s.lMode 1 (s.lop.b.toNat - 2) s.rng = some (r, g) →
      draw u.lMode 1 (u.lop.b.toNat - 2) u.rng = some (r', g') → r ≠ r' →
      ∀ t v : State, exec .encrypt s = .next t → exec .encrypt u = .next v → t.errcode = none → v.errcode = none →
        t.res0 ≠ v.res0) ∧
    (u.lop.e ≠ s.lop.e →
      ∀ t v : State, exec .encryptR s = .next t → exec .encryptR u = .next v → t.errcode = none → v.errcode = none →
        t.res0 ≠ v.res0)

/-! ### Completion, dependence, secrecy -/

/-- R101, R245: every command completes when the entropy source answers every draw. -/
def Obligations.EveryCommandCompletes : Prop :=
  ∀ (i : Instr) (s : State), AlwaysAnswered s →
    ∃ t, exec i s = .next t ∧ t.seq = .idle ∧ t.done = true ∧ AlwaysAnswered t

/-- R245 and 93 I12: an unanswered draw is the only way a command does not complete, and a command that reaches one is
stuck (the fault of log entry 3): ENCRYPT at its draw, MRTEST at the draw of any round it reaches, and FINDPRIME at the draw
of any candidate, or of any of a candidate's rounds, that it reaches. -/
def Obligations.OnlyAnUnansweredDrawStops : Prop :=
  (∀ (i : Instr) (s : State) (f : Fault), exec i s = .fault f →
    f = .entropyNeverAnswers ∧ s.lMode = .entropy ∧ none ∈ s.rng.answers ∧
      (i = .mrtest ∨ i = .findprime ∨ i = .encrypt)) ∧
  (∀ (i : Instr) (s : State) (r : Refusal), exec i s ≠ .refused r) ∧
  (∀ (s : State) (rest : List (Option Nat)), OperandsFit .encrypt s → 3 ≤ s.lop.b.toNat →
    s.lop.a.toNat < s.lop.b.toNat → s.lR = 0 → s.lMode = .entropy → s.rng.answers = none :: rest →
    exec .encrypt s = .fault .entropyNeverAnswers) ∧
  (∀ (s : State) (bases : List Nat) (g : Rng) (rest : List (Option Nat)), OperandsFit .mrtest s →
    1 ≤ s.lop.b.toNat → s.lop.b.toNat ≤ 255 → 5 ≤ s.lop.a.toNat → s.lop.a.toNat % 2 = 1 → s.lMode = .entropy →
    Draws .entropy 2 (s.lop.a.toNat - 2) s.rng bases g → bases.length < s.lop.b.toNat →
    (∀ b ∈ bases, StrongPass s.lop.a.toNat b) → g.answers = none :: rest →
    exec .mrtest s = .fault .entropyNeverAnswers) ∧
  (∀ (s : State) (i : Nat) (g : Rng) (rest : List (Option Nat)), OperandsFit .findprime s →
    20 ≤ s.lop.a.toNat → s.lop.a.toNat ≤ 255 → s.lMode = .entropy → i < s.lop.b.toNat →
    Discarded .entropy s.lop.a.toNat i s.rng g →
    (g.answers = none :: rest → exec .findprime s = .fault .entropyNeverAnswers) ∧
    (∀ (u : Nat) (g1 g2 : Rng) (bases : List Nat), draw .entropy 0 (2 ^ 31 - 1) g = some (u, g1) →
      Draws .entropy 2 (2 ^ 32 + 2 * u + 1 - 2) g1 bases g2 → bases.length < s.lop.a.toNat →
      (∀ b ∈ bases, StrongPass (2 ^ 32 + 2 * u + 1) b) → g2.answers = none :: rest →
      exec .findprime s = .fault .entropyNeverAnswers))

/-- R245: a running command completes within one step more than there are moves to come, when the host's accesses are
well formed, no reset comes and every draw is answered. That a command still running when no move is left completes in one
step more is the model's choice (log entry 1). -/
def Obligations.RunningCommandCompletesInBoundedSteps : Prop :=
  ∀ s : State, s.seq = .busy → AlwaysAnswered s → (∀ e ∈ s.inputs, safeMove e = true ∧ e ≠ .reset) →
    ∃ n ≤ s.inputs.length + 1, ∃ t, Host.Core.run core n s = .next t ∧ t.seq = .idle ∧ t.done = true ∧
      t.lastCmd = s.lastCmd

/-- R92: operands that a command's format does not list have no effect on it. -/
def Obligations.UnreadOperandsHaveNoEffect : Prop :=
  ∀ (i : Instr) (s : State) (x : Operand) (v : Word), x ∉ formatOperands i.format →
    ∀ t, exec i s = .next t →
      exec i { s with lop := s.lop.set x v } = .next { t with lop := t.lop.set x v }

/-- R47, R197: a command's results, its error code and the random-number state after it depend only on its latched
operands, L_MODE and its draws (an r already drawn is in L_R). -/
def Obligations.ResultsDependOnLatchesAndDrawsOnly : Prop :=
  ∀ (i : Instr) (s u t : State), s.lop = u.lop → s.lMode = u.lMode → s.rng = u.rng → s.lR = u.lR →
    exec i s = .next t → ∃ v, exec i u = .next v ∧ v.res0 = t.res0 ∧ v.res1 = t.res1 ∧ v.res2 = t.res2 ∧
      v.errcode = t.errcode ∧ v.rng = t.rng

/-- R46: when the sequencer gets r into L_R before completion, the command ends as when it gets it at completion; so the
model's choice of that moment (log entry 6) is not observable. -/
def Obligations.EarlyEphemeralChangesNoResult : Prop :=
  ∀ (i : Instr) (s : State), s.seq = .busy → decode s.lastCmd = .ok i → s.lR = 0 →
    exec i (latchEphemeral s) = exec i s

/-- R46, R183: no register ever shows r: no read of any register depends on L_R, and completion sets L_R to 0. -/
def Obligations.EphemeralIsNeverShown : Prop :=
  (∀ (s : State) (x : BitVec 33) (r : Reg), readReg { s with lR := x } r = readReg s r) ∧
  (∀ (i : Instr) (s t : State), exec i s = .next t → t.lR = 0)

/-- R110, R93, R100: the line `MNEMONIC a, b, …` writes its arguments to the operand registers of the format in operand
order, the other operand registers keeping their values, and then has the command accepted on exactly these values. -/
def Obligations.HostNotationLatchesItsArguments : Prop :=
  ∀ (s : State) (i : Instr) (args : List Word) (lat : Nat) (rest : List Event),
    args.length = (formatOperands i.format).length → s.seq = .idle →
    s.inputs = lineMoves (.command i args lat) ++ rest →
    ∃ o : Operands, (∀ (k : Nat) (x : Operand), (formatOperands i.format)[k]? = some x → args[k]? = some (o.get x)) ∧
      (∀ x, x ∉ formatOperands i.format → o.get x = s.op.get x) ∧
      Host.Core.run core (args.length + 1) s =
        .next (State.accepted { s with op := o, inputs := waitIdleMoves lat ++ rest } (encode i))
end

