-- ==== Sys2Proof/Laws/State.lean ====
section
/-! SUPPORT. Laws/State: each field of the state after each update of it, true by rfl. -/

namespace Sys2Proof.Machine

/-! ### After completion without error (R205) -/

@[simp] theorem State.finished_rngMode (s : State) (r0 r1 r2 : Nat) : (s.finished r0 r1 r2).rngMode = s.rngMode := rfl
@[simp] theorem State.finished_irqEn (s : State) (r0 r1 r2 : Nat) : (s.finished r0 r1 r2).irqEn = s.irqEn := rfl
@[simp] theorem State.finished_done (s : State) (r0 r1 r2 : Nat) : (s.finished r0 r1 r2).done = true := rfl
@[simp] theorem State.finished_ovr (s : State) (r0 r1 r2 : Nat) : (s.finished r0 r1 r2).ovr = s.ovr := rfl
@[simp] theorem State.finished_errcode (s : State) (r0 r1 r2 : Nat) : (s.finished r0 r1 r2).errcode = none := rfl
@[simp] theorem State.finished_lastCmd (s : State) (r0 r1 r2 : Nat) : (s.finished r0 r1 r2).lastCmd = s.lastCmd := rfl
@[simp] theorem State.finished_op (s : State) (r0 r1 r2 : Nat) : (s.finished r0 r1 r2).op = s.op := rfl
@[simp] theorem State.finished_res0 (s : State) (r0 r1 r2 : Nat) : (s.finished r0 r1 r2).res0 = BitVec.ofNat 64 r0 := rfl
@[simp] theorem State.finished_res1 (s : State) (r0 r1 r2 : Nat) : (s.finished r0 r1 r2).res1 = BitVec.ofNat 64 r1 := rfl
@[simp] theorem State.finished_res2 (s : State) (r0 r1 r2 : Nat) : (s.finished r0 r1 r2).res2 = BitVec.ofNat 64 r2 := rfl
@[simp] theorem State.finished_seq (s : State) (r0 r1 r2 : Nat) : (s.finished r0 r1 r2).seq = .idle := rfl
@[simp] theorem State.finished_lop (s : State) (r0 r1 r2 : Nat) : (s.finished r0 r1 r2).lop = s.lop := rfl
@[simp] theorem State.finished_lMode (s : State) (r0 r1 r2 : Nat) : (s.finished r0 r1 r2).lMode = s.lMode := rfl
@[simp] theorem State.finished_lR (s : State) (r0 r1 r2 : Nat) : (s.finished r0 r1 r2).lR = 0 := rfl
@[simp] theorem State.finished_irq (s : State) (r0 r1 r2 : Nat) : (s.finished r0 r1 r2).irq = s.irqEn := rfl
@[simp] theorem State.finished_rng (s : State) (r0 r1 r2 : Nat) : (s.finished r0 r1 r2).rng = s.rng := rfl
@[simp] theorem State.finished_busyReads (s : State) (r0 r1 r2 : Nat) : (s.finished r0 r1 r2).busyReads = s.busyReads := rfl
@[simp] theorem State.finished_readLog (s : State) (r0 r1 r2 : Nat) : (s.finished r0 r1 r2).readLog = s.readLog := rfl
@[simp] theorem State.finished_inputs (s : State) (r0 r1 r2 : Nat) : (s.finished r0 r1 r2).inputs = s.inputs := rfl

/-! ### After completion with an error (R206) -/

@[simp] theorem State.failed_rngMode (s : State) (e : ErrorKind) : (s.failed e).rngMode = s.rngMode := rfl
@[simp] theorem State.failed_irqEn (s : State) (e : ErrorKind) : (s.failed e).irqEn = s.irqEn := rfl
@[simp] theorem State.failed_done (s : State) (e : ErrorKind) : (s.failed e).done = true := rfl
@[simp] theorem State.failed_ovr (s : State) (e : ErrorKind) : (s.failed e).ovr = s.ovr := rfl
@[simp] theorem State.failed_errcode (s : State) (e : ErrorKind) : (s.failed e).errcode = some e := rfl
@[simp] theorem State.failed_lastCmd (s : State) (e : ErrorKind) : (s.failed e).lastCmd = s.lastCmd := rfl
@[simp] theorem State.failed_op (s : State) (e : ErrorKind) : (s.failed e).op = s.op := rfl
@[simp] theorem State.failed_res0 (s : State) (e : ErrorKind) : (s.failed e).res0 = 0 := rfl
@[simp] theorem State.failed_res1 (s : State) (e : ErrorKind) : (s.failed e).res1 = 0 := rfl
@[simp] theorem State.failed_res2 (s : State) (e : ErrorKind) : (s.failed e).res2 = 0 := rfl
@[simp] theorem State.failed_seq (s : State) (e : ErrorKind) : (s.failed e).seq = .idle := rfl
@[simp] theorem State.failed_lop (s : State) (e : ErrorKind) : (s.failed e).lop = s.lop := rfl
@[simp] theorem State.failed_lMode (s : State) (e : ErrorKind) : (s.failed e).lMode = s.lMode := rfl
@[simp] theorem State.failed_lR (s : State) (e : ErrorKind) : (s.failed e).lR = 0 := rfl
@[simp] theorem State.failed_irq (s : State) (e : ErrorKind) : (s.failed e).irq = s.irqEn := rfl
@[simp] theorem State.failed_rng (s : State) (e : ErrorKind) : (s.failed e).rng = s.rng := rfl
@[simp] theorem State.failed_busyReads (s : State) (e : ErrorKind) : (s.failed e).busyReads = s.busyReads := rfl
@[simp] theorem State.failed_readLog (s : State) (e : ErrorKind) : (s.failed e).readLog = s.readLog := rfl
@[simp] theorem State.failed_inputs (s : State) (e : ErrorKind) : (s.failed e).inputs = s.inputs := rfl

/-! ### After acceptance (R100) -/

@[simp] theorem State.accepted_rngMode (s : State) (w : Word) : (s.accepted w).rngMode = s.rngMode := rfl
@[simp] theorem State.accepted_irqEn (s : State) (w : Word) : (s.accepted w).irqEn = s.irqEn := rfl
@[simp] theorem State.accepted_done (s : State) (w : Word) : (s.accepted w).done = false := rfl
@[simp] theorem State.accepted_ovr (s : State) (w : Word) : (s.accepted w).ovr = s.ovr := rfl
@[simp] theorem State.accepted_errcode (s : State) (w : Word) : (s.accepted w).errcode = none := rfl
@[simp] theorem State.accepted_lastCmd (s : State) (w : Word) : (s.accepted w).lastCmd = w := rfl
@[simp] theorem State.accepted_op (s : State) (w : Word) : (s.accepted w).op = s.op := rfl
@[simp] theorem State.accepted_res0 (s : State) (w : Word) : (s.accepted w).res0 = s.res0 := rfl
@[simp] theorem State.accepted_res1 (s : State) (w : Word) : (s.accepted w).res1 = s.res1 := rfl
@[simp] theorem State.accepted_res2 (s : State) (w : Word) : (s.accepted w).res2 = s.res2 := rfl
@[simp] theorem State.accepted_seq (s : State) (w : Word) : (s.accepted w).seq = .busy := rfl
@[simp] theorem State.accepted_lop (s : State) (w : Word) : (s.accepted w).lop = s.op := rfl
@[simp] theorem State.accepted_lMode (s : State) (w : Word) : (s.accepted w).lMode = s.rngMode := rfl
@[simp] theorem State.accepted_lR (s : State) (w : Word) : (s.accepted w).lR = s.lR := rfl
@[simp] theorem State.accepted_irq (s : State) (w : Word) : (s.accepted w).irq = false := rfl
@[simp] theorem State.accepted_rng (s : State) (w : Word) : (s.accepted w).rng = s.rng := rfl
@[simp] theorem State.accepted_busyReads (s : State) (w : Word) : (s.accepted w).busyReads = s.busyReads := rfl
@[simp] theorem State.accepted_readLog (s : State) (w : Word) : (s.accepted w).readLog = s.readLog := rfl
@[simp] theorem State.accepted_inputs (s : State) (w : Word) : (s.accepted w).inputs = s.inputs := rfl

/-! ### After a dropped write (R38, R41) -/

@[simp] theorem State.overrun_rngMode (s : State) : s.overrun.rngMode = s.rngMode := rfl
@[simp] theorem State.overrun_irqEn (s : State) : s.overrun.irqEn = s.irqEn := rfl
@[simp] theorem State.overrun_done (s : State) : s.overrun.done = s.done := rfl
@[simp] theorem State.overrun_ovr (s : State) : s.overrun.ovr = true := rfl
@[simp] theorem State.overrun_errcode (s : State) : s.overrun.errcode = s.errcode := rfl
@[simp] theorem State.overrun_lastCmd (s : State) : s.overrun.lastCmd = s.lastCmd := rfl
@[simp] theorem State.overrun_op (s : State) : s.overrun.op = s.op := rfl
@[simp] theorem State.overrun_res0 (s : State) : s.overrun.res0 = s.res0 := rfl
@[simp] theorem State.overrun_res1 (s : State) : s.overrun.res1 = s.res1 := rfl
@[simp] theorem State.overrun_res2 (s : State) : s.overrun.res2 = s.res2 := rfl
@[simp] theorem State.overrun_seq (s : State) : s.overrun.seq = s.seq := rfl
@[simp] theorem State.overrun_lop (s : State) : s.overrun.lop = s.lop := rfl
@[simp] theorem State.overrun_lMode (s : State) : s.overrun.lMode = s.lMode := rfl
@[simp] theorem State.overrun_lR (s : State) : s.overrun.lR = s.lR := rfl
@[simp] theorem State.overrun_irq (s : State) : s.overrun.irq = s.irq := rfl
@[simp] theorem State.overrun_rng (s : State) : s.overrun.rng = s.rng := rfl
@[simp] theorem State.overrun_busyReads (s : State) : s.overrun.busyReads = s.busyReads := rfl
@[simp] theorem State.overrun_readLog (s : State) : s.overrun.readLog = s.readLog := rfl
@[simp] theorem State.overrun_inputs (s : State) : s.overrun.inputs = s.inputs := rfl

/-! ### After a write to CTRL (R33) -/

@[simp] theorem State.writeCtrl_rngMode (s : State) (v : Word) : (s.writeCtrl v).rngMode = RngMode.ofBit (v.getLsbD 0) := rfl
@[simp] theorem State.writeCtrl_irqEn (s : State) (v : Word) : (s.writeCtrl v).irqEn = v.getLsbD 1 := rfl
@[simp] theorem State.writeCtrl_done (s : State) (v : Word) : (s.writeCtrl v).done = s.done := rfl
@[simp] theorem State.writeCtrl_ovr (s : State) (v : Word) : (s.writeCtrl v).ovr = s.ovr := rfl
@[simp] theorem State.writeCtrl_errcode (s : State) (v : Word) : (s.writeCtrl v).errcode = s.errcode := rfl
@[simp] theorem State.writeCtrl_lastCmd (s : State) (v : Word) : (s.writeCtrl v).lastCmd = s.lastCmd := rfl
@[simp] theorem State.writeCtrl_op (s : State) (v : Word) : (s.writeCtrl v).op = s.op := rfl
@[simp] theorem State.writeCtrl_res0 (s : State) (v : Word) : (s.writeCtrl v).res0 = s.res0 := rfl
@[simp] theorem State.writeCtrl_res1 (s : State) (v : Word) : (s.writeCtrl v).res1 = s.res1 := rfl
@[simp] theorem State.writeCtrl_res2 (s : State) (v : Word) : (s.writeCtrl v).res2 = s.res2 := rfl
@[simp] theorem State.writeCtrl_seq (s : State) (v : Word) : (s.writeCtrl v).seq = s.seq := rfl
@[simp] theorem State.writeCtrl_lop (s : State) (v : Word) : (s.writeCtrl v).lop = s.lop := rfl
@[simp] theorem State.writeCtrl_lMode (s : State) (v : Word) : (s.writeCtrl v).lMode = s.lMode := rfl
@[simp] theorem State.writeCtrl_lR (s : State) (v : Word) : (s.writeCtrl v).lR = s.lR := rfl
@[simp] theorem State.writeCtrl_irq (s : State) (v : Word) : (s.writeCtrl v).irq = irqLevel (v.getLsbD 1) s.done := rfl
@[simp] theorem State.writeCtrl_rng (s : State) (v : Word) : (s.writeCtrl v).rng = s.rng := rfl
@[simp] theorem State.writeCtrl_busyReads (s : State) (v : Word) : (s.writeCtrl v).busyReads = s.busyReads := rfl
@[simp] theorem State.writeCtrl_readLog (s : State) (v : Word) : (s.writeCtrl v).readLog = s.readLog := rfl
@[simp] theorem State.writeCtrl_inputs (s : State) (v : Word) : (s.writeCtrl v).inputs = s.inputs := rfl

/-! ### After a write to STATUS (R34) -/

@[simp] theorem State.writeStatus_rngMode (s : State) (v : Word) : (s.writeStatus v).rngMode = s.rngMode := rfl
@[simp] theorem State.writeStatus_irqEn (s : State) (v : Word) : (s.writeStatus v).irqEn = s.irqEn := rfl
@[simp] theorem State.writeStatus_done (s : State) (v : Word) : (s.writeStatus v).done = (s.done && !v.getLsbD 1) := rfl
@[simp] theorem State.writeStatus_ovr (s : State) (v : Word) : (s.writeStatus v).ovr = (s.ovr && !v.getLsbD 3) := rfl
@[simp] theorem State.writeStatus_errcode (s : State) (v : Word) : (s.writeStatus v).errcode = s.errcode := rfl
@[simp] theorem State.writeStatus_lastCmd (s : State) (v : Word) : (s.writeStatus v).lastCmd = s.lastCmd := rfl
@[simp] theorem State.writeStatus_op (s : State) (v : Word) : (s.writeStatus v).op = s.op := rfl
@[simp] theorem State.writeStatus_res0 (s : State) (v : Word) : (s.writeStatus v).res0 = s.res0 := rfl
@[simp] theorem State.writeStatus_res1 (s : State) (v : Word) : (s.writeStatus v).res1 = s.res1 := rfl
@[simp] theorem State.writeStatus_res2 (s : State) (v : Word) : (s.writeStatus v).res2 = s.res2 := rfl
@[simp] theorem State.writeStatus_seq (s : State) (v : Word) : (s.writeStatus v).seq = s.seq := rfl
@[simp] theorem State.writeStatus_lop (s : State) (v : Word) : (s.writeStatus v).lop = s.lop := rfl
@[simp] theorem State.writeStatus_lMode (s : State) (v : Word) : (s.writeStatus v).lMode = s.lMode := rfl
@[simp] theorem State.writeStatus_lR (s : State) (v : Word) : (s.writeStatus v).lR = s.lR := rfl
@[simp] theorem State.writeStatus_irq (s : State) (v : Word) : (s.writeStatus v).irq = irqLevel s.irqEn (s.done && !v.getLsbD 1) := rfl
@[simp] theorem State.writeStatus_rng (s : State) (v : Word) : (s.writeStatus v).rng = s.rng := rfl
@[simp] theorem State.writeStatus_busyReads (s : State) (v : Word) : (s.writeStatus v).busyReads = s.busyReads := rfl
@[simp] theorem State.writeStatus_readLog (s : State) (v : Word) : (s.writeStatus v).readLog = s.readLog := rfl
@[simp] theorem State.writeStatus_inputs (s : State) (v : Word) : (s.writeStatus v).inputs = s.inputs := rfl

/-! ### After a host read (R77) -/

@[simp] theorem hostRead_rngMode (r : Reg) (s : State) : (hostRead r s).rngMode = s.rngMode := rfl
@[simp] theorem hostRead_irqEn (r : Reg) (s : State) : (hostRead r s).irqEn = s.irqEn := rfl
@[simp] theorem hostRead_done (r : Reg) (s : State) : (hostRead r s).done = s.done := rfl
@[simp] theorem hostRead_ovr (r : Reg) (s : State) : (hostRead r s).ovr = s.ovr := rfl
@[simp] theorem hostRead_errcode (r : Reg) (s : State) : (hostRead r s).errcode = s.errcode := rfl
@[simp] theorem hostRead_lastCmd (r : Reg) (s : State) : (hostRead r s).lastCmd = s.lastCmd := rfl
@[simp] theorem hostRead_op (r : Reg) (s : State) : (hostRead r s).op = s.op := rfl
@[simp] theorem hostRead_res0 (r : Reg) (s : State) : (hostRead r s).res0 = s.res0 := rfl
@[simp] theorem hostRead_res1 (r : Reg) (s : State) : (hostRead r s).res1 = s.res1 := rfl
@[simp] theorem hostRead_res2 (r : Reg) (s : State) : (hostRead r s).res2 = s.res2 := rfl
@[simp] theorem hostRead_seq (r : Reg) (s : State) : (hostRead r s).seq = s.seq := rfl
@[simp] theorem hostRead_lop (r : Reg) (s : State) : (hostRead r s).lop = s.lop := rfl
@[simp] theorem hostRead_lMode (r : Reg) (s : State) : (hostRead r s).lMode = s.lMode := rfl
@[simp] theorem hostRead_lR (r : Reg) (s : State) : (hostRead r s).lR = s.lR := rfl
@[simp] theorem hostRead_irq (r : Reg) (s : State) : (hostRead r s).irq = s.irq := rfl
@[simp] theorem hostRead_rng (r : Reg) (s : State) : (hostRead r s).rng = s.rng := rfl
@[simp] theorem hostRead_busyReads (r : Reg) (s : State) : (hostRead r s).busyReads = (if readIsFree s r then s.busyReads + 1 else s.busyReads) := rfl
@[simp] theorem hostRead_readLog (r : Reg) (s : State) : (hostRead r s).readLog = readReg s r :: s.readLog := rfl
@[simp] theorem hostRead_inputs (r : Reg) (s : State) : (hostRead r s).inputs = s.inputs := rfl

/-! ### After the reset input (R230) -/

@[simp] theorem resetCore_rngMode (s : State) : (resetCore s).rngMode = .entropy := rfl
@[simp] theorem resetCore_irqEn (s : State) : (resetCore s).irqEn = false := rfl
@[simp] theorem resetCore_done (s : State) : (resetCore s).done = false := rfl
@[simp] theorem resetCore_ovr (s : State) : (resetCore s).ovr = false := rfl
@[simp] theorem resetCore_errcode (s : State) : (resetCore s).errcode = none := rfl
@[simp] theorem resetCore_lastCmd (s : State) : (resetCore s).lastCmd = 0 := rfl
@[simp] theorem resetCore_op (s : State) : (resetCore s).op = ⟨0, 0, 0, 0, 0⟩ := rfl
@[simp] theorem resetCore_res0 (s : State) : (resetCore s).res0 = 0 := rfl
@[simp] theorem resetCore_res1 (s : State) : (resetCore s).res1 = 0 := rfl
@[simp] theorem resetCore_res2 (s : State) : (resetCore s).res2 = 0 := rfl
@[simp] theorem resetCore_seq (s : State) : (resetCore s).seq = .idle := rfl
@[simp] theorem resetCore_lop (s : State) : (resetCore s).lop = ⟨0, 0, 0, 0, 0⟩ := rfl
@[simp] theorem resetCore_lMode (s : State) : (resetCore s).lMode = .entropy := rfl
@[simp] theorem resetCore_lR (s : State) : (resetCore s).lR = 0 := rfl
@[simp] theorem resetCore_irq (s : State) : (resetCore s).irq = false := rfl
@[simp] theorem resetCore_rng (s : State) : (resetCore s).rng = ⟨0, s.rng.answers, s.rng.freeDraws⟩ := rfl
@[simp] theorem resetCore_busyReads (s : State) : (resetCore s).busyReads = s.busyReads := rfl
@[simp] theorem resetCore_readLog (s : State) : (resetCore s).readLog = s.readLog := rfl
@[simp] theorem resetCore_inputs (s : State) : (resetCore s).inputs = s.inputs := rfl

end Sys2Proof.Machine
end

