-- ==== Sys2Proof/Laws/Arith.lean ====
section
/-! SUPPORT. Laws/Arith: what the arithmetic units compute (R141, R151, R121, R163), one lemma per function. -/

namespace Sys2Proof.Machine

/-! ### The modexp engine -/

/-- What the loop adds to its accumulator: the exponent bits below the position. -/
theorem modpowLoop_eq (x e n : Nat) (i r : Nat) :
    modpowLoop x e n i r % n = r ^ 2 ^ i * x ^ (e % 2 ^ i) % n := by
  induction i generalizing r with
  | zero => simp [modpowLoop, Nat.mod_one]
  | succ i ih =>
    have hbit : e % 2 ^ (i + 1) = 2 ^ i * (e.testBit i).toNat + e % 2 ^ i := by
      rw [Nat.mod_pow_succ, Nat.toNat_testBit, Nat.add_comm]
    have hsq : ∀ q : Nat, (r * r % n) ^ 2 ^ i * q % n = r ^ 2 ^ (i + 1) * q % n := fun q => by
      rw [Nat.mul_mod, Nat.pow_mod, Nat.mod_mod, ← Nat.pow_mod, ← Nat.mul_mod, ← pow_two, ← pow_mul, pow_succ' 2 i]
    rw [modpowLoop, hbit]
    cases hb : e.testBit i with
    | false => simpa using (ih (r * r % n)).trans (hsq _)
    | true =>
      have hx : (r * r % n * x % n) ^ 2 ^ i * x ^ (e % 2 ^ i) % n
          = (r * r % n) ^ 2 ^ i * (x ^ 2 ^ i * x ^ (e % 2 ^ i)) % n := by
        rw [Nat.mul_mod, Nat.pow_mod, Nat.mod_mod, ← Nat.pow_mod, ← Nat.mul_mod, mul_pow, mul_assoc]
      simpa [pow_add] using ((ih (r * r % n * x % n)).trans hx).trans (hsq _)

/-- The loop's value is reduced when its accumulator is. -/
theorem modpowLoop_lt (x e n : Nat) (i r : Nat) (hn : 0 < n) (hr : r < n) : modpowLoop x e n i r < n := by
  induction i generalizing r with
  | zero => exact hr
  | succ i ih =>
    rw [modpowLoop]
    split
    · exact ih _ (Nat.mod_lt _ hn)
    · exact ih _ (Nat.mod_lt _ hn)

/-- The modexp engine's result lies below its modulus (R141). -/
theorem modpow_lt (b e n : Nat) (hn : 2 ≤ n) : modpow b e n < n :=
  modpowLoop_lt _ _ _ _ _ (by omega) (by omega)

/-- The loop from accumulator 1, over enough positions for the exponent. -/
theorem modpowLoop_one (b e n i : Nat) (he : e < 2 ^ i) : modpowLoop (b % n) e n i 1 % n = b ^ e % n := by
  rw [modpowLoop_eq, one_pow, one_mul, Nat.mod_eq_of_lt he, ← Nat.pow_mod]

/-- The modexp engine computes the power modulo n, for every 33-bit exponent (R141). -/
theorem modpow_eq_pow_mod (b e n : Nat) (hn : 2 ≤ n) (he : e < 2 ^ 33) : modpow b e n = b ^ e % n := by
  rw [← modpowLoop_one b e n 33 he]
  exact (Nat.mod_eq_of_lt (modpow_lt b e n hn)).symm

/-! ### The modular inverse unit -/

/-- The loop ends with the greatest common divisor, and with a coefficient of the second start value: each step halves
the product of the two remainders, so the bound on the steps is never met. -/
theorem egcdLoop_spec (a n : Int) : ∀ (fuel r0 r1 : Nat) (t0 t1 : Int),
    (r1 < r0) → r0 * r1 < 2 ^ fuel → (n ∣ t0 * a - r0) → (n ∣ t1 * a - r1) →
    (egcdLoop fuel r0 r1 t0 t1).1 = Nat.gcd r0 r1 ∧
      n ∣ (egcdLoop fuel r0 r1 t0 t1).2 * a - (Nat.gcd r0 r1 : Nat)
  | 0, r0, r1, t0, t1, hlt, hp, h0, _ => by
    have : r1 = 0 := by
      rcases Nat.eq_zero_or_pos r1 with h | h
      · exact h
      · have := Nat.mul_pos (Nat.lt_of_le_of_lt (Nat.zero_le _) hlt) h
        omega
    subst this
    simpa [egcdLoop] using h0
  | fuel + 1, r0, r1, t0, t1, hlt, hp, h0, h1 => by
    rw [egcdLoop]
    split
    · next hz => subst hz; simpa using h0
    · next hz =>
      have hpos : 0 < r1 := Nat.pos_of_ne_zero hz
      have hdm := Nat.div_add_mod r0 r1
      have hsub : r0 - r0 / r1 * r1 = r0 % r1 := by rw [Nat.mul_comm]; omega
      have hmlt := Nat.mod_lt r0 hpos
      have hq : 1 ≤ r0 / r1 := Nat.div_pos hlt.le hpos
      have hhalf : 2 * (r0 % r1) ≤ r0 := by nlinarith
      have hprod : r1 * (r0 % r1) < 2 ^ fuel := by
        have := Nat.mul_le_mul_left r1 hhalf
        rw [pow_succ] at hp
        nlinarith
      have hstep : n ∣ (t0 - (r0 / r1 : Nat) * t1) * a - ((r0 % r1 : Nat) : Int) := by
        have hr : ((r0 % r1 : Nat) : Int) = r0 - (r0 / r1 : Nat) * r1 := by
          have := congrArg (Nat.cast (R := Int)) hdm
          push_cast at this ⊢
          linarith
        have heq : (t0 - (r0 / r1 : Nat) * t1) * a - ((r0 % r1 : Nat) : Int)
            = (t0 * a - r0) - (r0 / r1 : Nat) * (t1 * a - r1) := by rw [hr]; ring
        rw [heq]
        exact Int.dvd_sub h0 (h1.mul_left _)
      rw [hsub]
      have ih := egcdLoop_spec a n fuel r1 (r0 % r1) t1 (t0 - (r0 / r1 : Nat) * t1) hmlt hprod h1 hstep
      rwa [Nat.gcd_comm r1, ← Nat.gcd_rec, Nat.gcd_comm r1] at ih

/-- The modular inverse unit computes the inverse, in [1, n − 1] (R151). -/
theorem modinv_spec (a n : Nat) (hn : 2 ≤ n) (hn33 : n < 2 ^ 33) (ha : a < n) (hg : Nat.gcd a n = 1) :
    1 ≤ modinv a n ∧ modinv a n < n ∧ a * modinv a n % n = 1 := by
  have hp : n * a < 2 ^ 66 := by nlinarith
  obtain ⟨-, h⟩ := egcdLoop_spec a n 66 n a 0 1 ha hp (by simp) (by simp)
  rw [Nat.gcd_comm, hg] at h
  set c := (egcdLoop 66 n a 0 1).2 with hc
  have hn0 : (0 : Int) < n := by exact_mod_cast (by omega : 0 < n)
  have hval : ((modinv a n : Nat) : Int) = c % n := Int.toNat_of_nonneg (Int.emod_nonneg _ hn0.ne')
  have hlt : modinv a n < n := by
    have := Int.emod_lt_of_pos c hn0
    rw [← hval] at this
    exact_mod_cast this
  have hmod : a * modinv a n % n = 1 := by
    have h1 : ((a * modinv a n : Nat) : Int) % n = 1 % n := by
      push_cast
      rw [hval]
      have hc1 : (1 : Int) ≡ c * a [ZMOD n] := Int.modEq_iff_dvd.2 (by simpa using h)
      exact ((Int.mod_modEq c n).mul_left a).trans ((mul_comm (a : Int) c ▸ hc1).symm)
    have h2 : ((a * modinv a n % n : Nat) : Int) = ((1 % n : Nat) : Int) := by exact_mod_cast h1
    have h3 := Nat.cast_injective h2
    rwa [Nat.mod_eq_of_lt (by omega : 1 < n)] at h3
  refine ⟨Nat.pos_of_ne_zero fun h0 => ?_, hlt, hmod⟩
  rw [h0] at hmod
  simp at hmod

end Sys2Proof.Machine
end

