-- ==== Sys2Proof/Laws/Ops.lean ====
section
/-! SUPPORT. Laws/Ops: what the shared operations can do, one lemma each: completion, acceptance, the checks, draws and
host accesses. -/

namespace Sys2Proof.Machine

/-! ### Completion and acceptance -/

theorem finish_eq (r0 r1 r2 : Nat) (s : State) : finish r0 r1 r2 s = .next (s.finished r0 r1 r2) := by
  simp [finish, State.finished, Sys2Proof.Machine.irqLevel]

theorem fail_eq (e : ErrorKind) (s : State) : fail e s = .next (s.failed e) := by
  simp [fail, State.failed, Sys2Proof.Machine.irqLevel]

theorem accept_eq (w : Word) (s : State) : accept w s = s.accepted w := rfl

/-! ### The checks -/

theorem fits33_iff (v : Word) : fits33 v = true ↔ Fits v :=
  decide_eq_true_iff

/-- The width check passes exactly when the operands the command reads fit (R91, R104 step 2). -/
theorem widthOk_iff (i : Instr) (s : State) : widthOk i.format s.lop = true ↔ OperandsFit i s := by
  cases i <;> simp [widthOk, Instr.format, formatOperands, OperandsFit, fits33_iff, Operands.get]

theorem seedBad_eq_false_iff (s : State) : seedBad s = false ↔ SeedOk s := by
  simp [seedBad, SeedOk]

theorem seedBad_eq_true_iff (s : State) :
    seedBad s = true ↔ s.lMode = .deterministic ∧ s.rng.prngState = 0 := by
  simp [seedBad]

/-! ### The PRNG -/

theorem xor_shiftLeft_eq_zero {x : Word} {k : Nat} (hk : 0 < k) (h : x ^^^ (x <<< k) = 0) : x = 0 := by
  have hx : x = x <<< k := BitVec.xor_eq_zero_iff.1 h
  refine BitVec.eq_of_getLsbD_eq fun i hi => ?_
  induction i using Nat.strong_induction_on with
  | _ i ih =>
    rw [hx, BitVec.getLsbD_shiftLeft]
    rcases Nat.lt_or_ge i k with hlt | hge
    · simp [hlt]
    · simp [ih (i - k) (by omega) (by omega)]

theorem xor_ushiftRight_eq_zero {x : Word} {k : Nat} (hk : 0 < k) (h : x ^^^ (x >>> k) = 0) : x = 0 := by
  have hx : x = x >>> k := BitVec.xor_eq_zero_iff.1 h
  have key : ∀ d i, 64 ≤ i + d → x.getLsbD i = false := by
    intro d
    induction d with
    | zero => intro i hi; exact BitVec.getLsbD_of_ge x i (by omega)
    | succ d ih =>
      intro i hi
      rw [hx, BitVec.getLsbD_ushiftRight]
      exact ih (k + i) (by omega)
  exact BitVec.eq_of_getLsbD_eq fun i _ => by simp [key 64 i (by omega)]

/-- A PRNG step maps no nonzero state to 0 (R52, K1). -/
theorem prngStep_ne_zero {x : Word} (h : x ≠ 0) : prngStep x ≠ 0 := fun h0 =>
  h (xor_shiftLeft_eq_zero (by decide)
    (xor_ushiftRight_eq_zero (by decide) (xor_shiftLeft_eq_zero (by decide) h0)))

/-! ### Draws -/

theorem intoRange_mem (lo hi v : Nat) (h : lo ≤ hi) : lo ≤ intoRange lo hi v ∧ intoRange lo hi v ≤ hi := by
  rw [intoRange]
  split
  · assumption
  · have := Nat.mod_lt v (by omega : 0 < hi - lo + 1)
    omega

/-- Every draw lies in its range (R50). -/
theorem draw_mem {mode : RngMode} {lo hi v : Nat} {g g' : Rng} (h : lo ≤ hi)
    (hd : draw mode lo hi g = some (v, g')) : lo ≤ v ∧ v ≤ hi := by
  cases mode with
  | entropy =>
    simp only [draw] at hd
    split at hd
    · cases hd
    · obtain ⟨rfl, -⟩ := Prod.mk.inj (Option.some.inj hd)
      exact intoRange_mem _ _ _ h
  | deterministic =>
    obtain ⟨rfl, -⟩ := Prod.mk.inj (Option.some.inj hd)
    have := Nat.mod_lt (prngStep g.prngState).toNat (by omega : 0 < hi - lo + 1)
    omega

/-- What a draw changes of the random-number state (R42, R50): in entropy mode PRNG_STATE is neither read nor
written. -/
theorem draw_entropy_prngState {lo hi v : Nat} {g g' : Rng} (hd : draw .entropy lo hi g = some (v, g')) :
    g'.prngState = g.prngState := by
  simp only [draw, entropyAnswer] at hd
  split at hd
  · cases hd
  · next hv =>
    obtain ⟨-, rfl⟩ := Prod.mk.inj (Option.some.inj hd)
    split at hv
    · obtain ⟨-, rfl⟩ := Prod.mk.inj (Option.some.inj hv); rfl
    · cases hv
    · obtain ⟨-, rfl⟩ := Prod.mk.inj (Option.some.inj hv); rfl

/-- In deterministic mode a draw advances PRNG_STATE once and asks the entropy source for nothing (R42, R50). -/
theorem draw_deterministic_rng {lo hi v : Nat} {g g' : Rng} (hd : draw .deterministic lo hi g = some (v, g')) :
    g' = { g with prngState := prngStep g.prngState } :=
  (Prod.mk.inj (Option.some.inj hd)).2.symm

/-- A source that answers every draw answers this one and goes on answering (R245). -/
theorem draw_answered (mode : RngMode) (lo hi : Nat) (g : Rng) (h : none ∉ g.answers) :
    ∃ v g', draw mode lo hi g = some (v, g') ∧ none ∉ g'.answers := by
  cases mode with
  | deterministic => exact ⟨_, _, rfl, h⟩
  | entropy =>
    rcases g with ⟨x, as, c⟩
    cases as with
    | nil => exact ⟨_, _, rfl, h⟩
    | cons a as =>
      cases a with
      | none => simp at h
      | some v => exact ⟨_, _, rfl, fun h' => h (List.mem_cons_of_mem _ h')⟩

/-- The states in which the seed check passes stay so over a draw (R52, R53). -/
theorem draw_keeps_seed {mode : RngMode} {lo hi v : Nat} {g g' : Rng} (hd : draw mode lo hi g = some (v, g'))
    (h : mode = .deterministic → g.prngState ≠ 0) : mode = .deterministic → g'.prngState ≠ 0 := by
  rintro rfl
  rw [draw_deterministic_rng hd]
  exact prngStep_ne_zero (h rfl)

/-! ### Host accesses -/

/-- The slots lie at their offsets (R30). -/
theorem regAt_offset (r : Reg) : regAt (regOffset r) = some r := by
  cases r with
  | opr x => cases x <;> rfl
  | _ => rfl

/-- An offset with a slot is a multiple of 8 in the window. -/
theorem regAt_some {off : Nat} {r : Reg} (h : regAt off = some r) : off = regOffset r := by
  simp only [regAt] at h
  split at h <;> first | (obtain rfl := Option.some.inj h; rfl) | cases h

/-- Every multiple of 8 in the window has a slot (R30). -/
theorem regAt_aligned {off : Nat} (h : off < 128) (h8 : off % 8 = 0) : ∃ r, regAt off = some r := by
  obtain ⟨k, rfl⟩ : ∃ k, off = 8 * k := ⟨off / 8, by omega⟩
  have hk : k < 16 := by omega
  clear h h8
  interval_cases k <;> exact ⟨_, rfl⟩

/-- What a host access does (R71, R72): it faults, or it reads or writes the slot at its offset. -/
theorem hostAccess_next {a : Access} {s t : State} (h : hostAccess a s = .next t) :
    a.width = .w64 ∧ ∃ r, a.off = regOffset r ∧
      ((a.kind = .read ∧ t = hostRead r s) ∨ ∃ v, a.kind = .write v ∧ t = hostWrite r v s) := by
  rcases a with ⟨w, off, k⟩
  simp only [hostAccess] at h
  split at h
  · cases h
  · split at h
    · cases h
    · next hw =>
      split at h
      · cases h
      · next r hr =>
        refine ⟨by simpa using hw, r, regAt_some hr, ?_⟩
        cases k with
        | read => exact .inl ⟨rfl, (Host.Outcome.next.inj h).symm⟩
        | write v => exact .inr ⟨v, rfl, (Host.Outcome.next.inj h).symm⟩

theorem regOffset_lt (r : Reg) : regOffset r < 128 := by
  cases r with
  | opr x => cases x <;> decide
  | _ => decide

theorem regOffset_aligned (r : Reg) : regOffset r % 8 = 0 := by
  cases r with
  | opr x => cases x <;> decide
  | _ => decide

/-- A read of a slot (R72, R77). -/
theorem hostAccess_read (r : Reg) (s : State) : hostAccess ⟨.w64, regOffset r, .read⟩ s = .next (hostRead r s) := by
  have h := regOffset_lt r
  simp only [hostAccess, Config.windowBytes, regAt_offset]
  rw [if_neg (by omega)]
  simp

/-- A write to a slot (R72). -/
theorem hostAccess_write (r : Reg) (v : Word) (s : State) :
    hostAccess ⟨.w64, regOffset r, .write v⟩ s = .next (hostWrite r v s) := by
  have h := regOffset_lt r
  simp only [hostAccess, Config.windowBytes, regAt_offset]
  rw [if_neg (by omega)]
  simp

end Sys2Proof.Machine
end

