-- ==== Sys2Proof/Laws/Primality.lean ====
section
/-! SUPPORT. Laws/Primality: what a Miller-Rabin round and the acceptance checks of a candidate decide (R121, R122,
R163, R164). -/

namespace Sys2Proof.Machine

/-! ### The decomposition n − 1 = 2^s · t -/

theorem twosIn_spec : ∀ (bits m : Nat), 0 < m → m < 2 ^ bits →
    ∃ t, m = 2 ^ twosIn bits m * t ∧ t % 2 = 1
  | 0, m, h0, h => by simp at h; omega
  | bits + 1, m, h0, h => by
    rw [twosIn]
    split
    · next he =>
      rw [pow_succ] at h
      obtain ⟨t, ht, hodd⟩ := twosIn_spec bits (m / 2) (by omega) (by omega)
      refine ⟨t, ?_, hodd⟩
      rw [pow_succ', mul_assoc, ← ht]
      omega
    · next he => exact ⟨m, by simp, by omega⟩

/-- A number has one decomposition into a power of two and an odd number. -/
theorem two_pow_mul_odd_unique {s t s' t' : Nat} (h : 2 ^ s * t = 2 ^ s' * t') (ht : t % 2 = 1)
    (ht' : t' % 2 = 1) : s = s' ∧ t = t' := by
  have key : ∀ {s t s' t' : Nat}, 2 ^ s * t = 2 ^ s' * t' → t % 2 = 1 → ¬ s < s' := by
    intro s t s' t' h ht hlt
    obtain ⟨d, rfl⟩ := Nat.exists_eq_add_of_lt hlt
    rw [pow_succ, pow_add, mul_assoc, mul_assoc] at h
    have := Nat.eq_of_mul_eq_mul_left (by positivity) h
    rw [mul_comm 2 t', ← mul_assoc] at this
    omega
  have hs : s = s' := le_antisymm (not_lt.1 (key h.symm ht')) (not_lt.1 (key h ht))
  subst hs
  exact ⟨rfl, Nat.eq_of_mul_eq_mul_left (by positivity) h⟩

/-! ### A round -/

theorem squaringsMeet_iff (n : Nat) : ∀ (k x : Nat),
    squaringsMeet n k x = true ↔ ∃ i, 1 ≤ i ∧ i ≤ k ∧ x ^ 2 ^ i % n = n - 1
  | 0, x => by simp only [squaringsMeet, Bool.false_eq_true, false_iff]; omega
  | k + 1, x => by
    have hpow : ∀ i, (x * x % n) ^ 2 ^ i % n = x ^ 2 ^ (i + 1) % n := fun i => by
      rw [← Nat.pow_mod, ← pow_two, ← pow_mul, pow_succ' 2 i]
    rw [squaringsMeet]
    split
    · next h => exact ⟨fun _ => ⟨1, le_refl 1, by omega, by simpa [pow_two] using h⟩, fun _ => rfl⟩
    · next h =>
      rw [squaringsMeet_iff n k]
      constructor
      · rintro ⟨i, h1, h2, h3⟩
        exact ⟨i + 1, by omega, by omega, by rw [← hpow, h3]⟩
      · rintro ⟨i, h1, h2, h3⟩
        rcases Nat.lt_or_ge 1 i with hi | hi
        · refine ⟨i - 1, by omega, by omega, ?_⟩
          rw [hpow, Nat.sub_add_cancel h1, h3]
        · obtain rfl : i = 1 := by omega
          exact absurd (by simpa [pow_two] using h3) h

/-- A round passes exactly when its base is a strong pass of n (R121). -/
theorem mrRound_iff (n a : Nat) (hn : 5 ≤ n) (hn33 : n < 2 ^ 33) (hodd : n % 2 = 1) :
    mrRound n a = true ↔ StrongPass n a := by
  obtain ⟨t, ht, htodd⟩ := twosIn_spec 33 (n - 1) (by omega) (by omega)
  have htq : (n - 1) / 2 ^ twosIn 33 (n - 1) = t := by
    rw [Nat.div_eq_iff_eq_mul_right (by positivity) ⟨t, ht⟩, ← ht]
  have htlt : t < 2 ^ 33 := lt_of_le_of_lt (Nat.le_of_dvd (by omega) ⟨_, ht.trans (mul_comm _ _)⟩) (by omega : n - 1 < 2 ^ 33)
  have hs1 : 1 ≤ twosIn 33 (n - 1) := by
    rcases Nat.eq_zero_or_pos (twosIn 33 (n - 1)) with h | h
    · rw [h, pow_zero, one_mul] at ht; omega
    · exact h
  have hx : modpow a t n = a ^ t % n := modpow_eq_pow_mod a t n (by omega) htlt
  have hpow : ∀ i, (a ^ t % n) ^ 2 ^ i % n = a ^ (2 ^ i * t) % n := fun i => by
    rw [← Nat.pow_mod, ← pow_mul, mul_comm]
  have hmr : mrRound n a = true ↔
      (a ^ t % n = 1 ∨ a ^ t % n = n - 1) ∨ ∃ i, 1 ≤ i ∧ i ≤ twosIn 33 (n - 1) - 1 ∧ a ^ (2 ^ i * t) % n = n - 1 := by
    simp only [mrRound, Config.operandWidth, htq, hx, ← hpow]
    split
    · next h => simp [h]
    · next h => simp only [h, false_or, squaringsMeet_iff]
  rw [hmr]
  constructor
  · rintro ((h | h) | ⟨i, h1, h2, h3⟩)
    · exact ⟨_, t, ht, htodd, .inl h⟩
    · exact ⟨_, t, ht, htodd, .inr ⟨0, by omega, by simpa using h⟩⟩
    · exact ⟨_, t, ht, htodd, .inr ⟨i, by omega, h3⟩⟩
  · rintro ⟨s, t', ht', htodd', h⟩
    obtain ⟨rfl, rfl⟩ := two_pow_mul_odd_unique (ht.symm.trans ht') htodd htodd'
    rcases h with h | ⟨i, hi, h⟩
    · exact .inl (.inl h)
    · rcases Nat.eq_zero_or_pos i with rfl | hpos
      · exact .inl (.inr (by simpa using h))
      · exact .inr ⟨i, hpos, by omega, h⟩

/-- Powers modulo a prime, read in its field. -/
theorem zmod_pow_eq (n : Nat) (a e r : Nat) (hr : r < n) : a ^ e % n = r ↔ (a : ZMod n) ^ e = r := by
  rw [← Nat.cast_pow, ZMod.natCast_eq_natCast_iff', Nat.mod_eq_of_lt hr]

/-- Every base passes a round of a prime (R122): a square root of 1 modulo a prime is 1 or −1. -/
theorem strongPass_of_prime (n a : Nat) (hp : n.Prime) (hn : 5 ≤ n) (ha : 2 ≤ a) (ha' : a ≤ n - 2) :
    StrongPass n a := by
  have : Fact n.Prime := ⟨hp⟩
  obtain ⟨t, ht, hodd⟩ := twosIn_spec n (n - 1) (by omega) (lt_trans (by omega : n - 1 < n) Nat.lt_two_pow_self)
  refine ⟨_, t, ht, hodd, ?_⟩
  have hneg : ((n - 1 : Nat) : ZMod n) = -1 := by
    rw [Nat.cast_sub (by omega)]; simp
  have ha0 : (a : ZMod n) ≠ 0 := by
    rw [Ne, ZMod.natCast_eq_zero_iff]
    exact fun h => absurd (Nat.le_of_dvd (by omega) h) (by omega)
  have key : ∀ s, (a : ZMod n) ^ (2 ^ s * t) = 1 →
      (a : ZMod n) ^ t = 1 ∨ ∃ i < s, (a : ZMod n) ^ (2 ^ i * t) = -1 := by
    intro s
    induction s with
    | zero => intro h; exact .inl (by simpa using h)
    | succ s ih =>
      intro h
      rw [pow_succ, mul_comm (2 ^ s) 2, mul_assoc, mul_comm 2, pow_mul, sq_eq_one_iff] at h
      rcases h with h | h
      · rcases ih h with h' | ⟨i, hi, h'⟩
        · exact .inl h'
        · exact .inr ⟨i, by omega, h'⟩
      · exact .inr ⟨s, by omega, h⟩
  rcases key _ (by rw [← ht]; exact ZMod.pow_card_sub_one_eq_one ha0) with h | ⟨i, hi, h⟩
  · exact .inl ((zmod_pow_eq n a t 1 (by omega)).2 (by simpa using h))
  · exact .inr ⟨i, hi, (zmod_pow_eq n a _ (n - 1) (by omega)).2 (by rw [h, hneg])⟩

/-! ### Trial division -/

/-- Trial division from d lists exactly the prime divisors of m, when m has no divisor below d. -/
theorem mem_trialDivide (p : Nat) : ∀ (fuel d m : Nat), 2 ≤ d → 0 < m → (∀ q, q.Prime → q ∣ m → d ≤ q) →
    (∃ k, m < 2 ^ k ∧ ∃ c, m < c * c ∧ c + k ≤ d + fuel) →
    (p ∈ trialDivide fuel d m ↔ p.Prime ∧ p ∣ m)
  | fuel, d, m, hd, hm, hmin, ⟨k, hk, c, hc, hfuel⟩ => by
    have hdone : m < d * d → (p ∈ (if 1 < m then [m] else []) ↔ p.Prime ∧ p ∣ m) := by
      intro hlt
      split
      · next h1 =>
        have hprime : m.Prime := by
          rw [Nat.prime_def_le_sqrt]
          refine ⟨h1, fun q hq hqs hdvd => ?_⟩
          obtain ⟨r, hr, hrq⟩ := Nat.exists_prime_and_dvd (by omega : q ≠ 1)
          have h2 := hmin r hr (hrq.trans hdvd)
          have h3 := Nat.le_of_dvd (by omega) hrq
          have h4 := Nat.le_sqrt.1 hqs
          nlinarith
        rw [List.mem_singleton]
        exact ⟨fun h => by subst h; exact ⟨hprime, dvd_rfl⟩, fun ⟨h, h'⟩ => (Nat.prime_dvd_prime_iff_eq h hprime).1 h'⟩
      · next h1 =>
        obtain rfl : m = 1 := by omega
        simp only [List.not_mem_nil, Nat.dvd_one, false_iff, not_and]
        rintro h rfl
        exact Nat.not_prime_one h
    match fuel with
    | 0 =>
      have hk0 : 0 ≤ k := Nat.zero_le k
      have : c ≤ d := by omega
      exact hdone (lt_of_lt_of_le hc (Nat.mul_le_mul this this))
    | fuel + 1 =>
      rw [trialDivide]
      split
      · next hlt => exact hdone hlt
      · next hge =>
        split
        · next hdvd =>
          have hdm : d ∣ m := Nat.dvd_of_mod_eq_zero hdvd
          obtain ⟨r, rfl⟩ := hdm
          have hdprime : d.Prime := by
            obtain ⟨q, hq, hqd⟩ := Nat.exists_prime_and_dvd (by omega : d ≠ 1)
            have h1 := hmin q hq (hqd.mul_right r)
            have h2 := Nat.le_of_dvd (by omega) hqd
            rwa [le_antisymm h1 h2]
          have hr : 0 < r := Nat.pos_of_mul_pos_left hm
          rw [Nat.mul_div_cancel_left r (by omega : 0 < d)]
          have hrk : 2 * r < 2 ^ k := lt_of_le_of_lt (Nat.mul_le_mul_right r hd) hk
          have hk1 : k ≠ 0 := by rintro rfl; simp at hrk; omega
          obtain ⟨j, rfl⟩ := Nat.exists_eq_succ_of_ne_zero hk1
          have ih := mem_trialDivide p fuel d r hd hr (fun q hq hqr => hmin q hq (hqr.mul_left d))
            ⟨j, by rw [Nat.succ_eq_add_one, pow_succ] at hrk; omega, c, by nlinarith, by omega⟩
          rw [List.mem_cons, ih]
          constructor
          · rintro (rfl | ⟨h, h'⟩)
            · exact ⟨hdprime, dvd_mul_right _ _⟩
            · exact ⟨h, h'.mul_left d⟩
          · rintro ⟨h, h'⟩
            rcases (Nat.Prime.dvd_mul h).1 h' with h1 | h1
            · exact .inl ((Nat.prime_dvd_prime_iff_eq h hdprime).1 h1)
            · exact .inr ⟨h, h1⟩
        · next hnd =>
          refine mem_trialDivide p fuel (d + 1) m (by omega) hm (fun q hq hqm => ?_) ⟨k, hk, c, hc, by omega⟩
          rcases Nat.lt_or_ge d q with h | h
          · exact h
          · have hqd := le_antisymm h (hmin q hq hqm)
            subst hqd
            exact absurd (Nat.mod_eq_zero_of_dvd hqm) hnd

/-- The prime divisors of a 33-bit number (R163). -/
theorem mem_primeDivisors (p m : Nat) (hm : 0 < m) (hm33 : m < 2 ^ 33) :
    p ∈ primeDivisors m ↔ p.Prime ∧ p ∣ m :=
  mem_trialDivide p trialSteps 2 m (le_refl 2) hm (fun q hq _ => hq.two_le)
    ⟨33, hm33, 92682, by omega, by decide⟩

/-! ### The acceptance checks -/

/-- The acceptance checks in arithmetic terms (R163). -/
theorem generatorOk_iff (p : Nat) (hp : 3 ≤ p) (hp33 : p < 2 ^ 33) :
    generatorOk p = true ↔
      2 ^ (p - 1) % p = 1 ∧ ∀ q, q.Prime → q ∣ p - 1 → 2 ^ ((p - 1) / q) % p ≠ 1 := by
  have hlt : ∀ q, (p - 1) / q < 2 ^ 33 := fun q => lt_of_le_of_lt (Nat.div_le_self _ _) (by omega)
  have h1 : modpow 2 (p - 1) p = 2 ^ (p - 1) % p := modpow_eq_pow_mod _ _ _ (by omega) (by omega)
  simp only [generatorOk, Config.gen, Bool.and_eq_true, List.all_eq_true, decide_eq_true_eq, h1,
    mem_primeDivisors _ (p - 1) (by omega) (by omega), modpow_eq_pow_mod 2 _ p (by omega) (hlt _)]
  exact and_congr_right fun _ => ⟨fun h q hq hd => h q ⟨hq, hd⟩, fun h q hq => h q hq.1 hq.2⟩

/-- The checks accept exactly the primes with 2 as a primitive root (R164, R165). -/
theorem generatorOk_iff_prime (p : Nat) (hp : 3 ≤ p) (hp33 : p < 2 ^ 33) :
    generatorOk p = true ↔ PrimeWithGeneratorTwo p := by
  have h2 : ∀ e, 2 ^ e % p = 1 ↔ (2 : ZMod p) ^ e = 1 := fun e => by
    simpa using zmod_pow_eq p 2 e 1 (by omega)
  rw [generatorOk_iff p hp hp33]
  simp only [Ne, h2]
  constructor
  · rintro ⟨h1, hq⟩
    exact ⟨lucas_primality p 2 h1 hq, orderOf_eq_of_pow_and_pow_div_prime (by omega) h1 hq⟩
  · rintro ⟨hprime, hord⟩
    refine ⟨hord ▸ pow_orderOf_eq_one _, fun q hq hd h => ?_⟩
    have h3 := orderOf_dvd_of_pow_eq_one h
    rw [hord] at h3
    have h4 : 0 < (p - 1) / q := Nat.div_pos (Nat.le_of_dvd (by omega) hd) hq.pos
    have h5 := Nat.le_of_dvd h4 h3
    exact absurd (Nat.div_lt_self (by omega : 0 < p - 1) hq.one_lt) (by omega)

end Sys2Proof.Machine
end

