-- ==== Sys2Proof/Laws/Loops.lean ====
section
/-! SUPPORT. Laws/Loops: how a series of rounds and a search end, in terms of the draws they make (R120, R160 to
R167). -/

namespace Sys2Proof.Machine

/-! ### Series of draws -/

theorem draws_nil_iff {mode : RngMode} {lo hi : Nat} {g g' : Rng} : Draws mode lo hi g [] g' ↔ g' = g :=
  ⟨fun h => by cases h; rfl, fun h => by subst h; exact .nil _⟩

theorem draws_cons_iff {mode : RngMode} {lo hi v : Nat} {vs : List Nat} {g g' : Rng} :
    Draws mode lo hi g (v :: vs) g' ↔ ∃ g1, draw mode lo hi g = some (v, g1) ∧ Draws mode lo hi g1 vs g' :=
  ⟨fun h => by cases h with | cons h t => exact ⟨_, h, t⟩, fun ⟨_, h, t⟩ => .cons h t⟩

/-- A property of the random-number state that every draw keeps is kept over a series. -/
theorem Draws.keeps {mode : RngMode} {lo hi : Nat} {P : Rng → Prop}
    (hP : ∀ g v g', draw mode lo hi g = some (v, g') → P g → P g') {g g' : Rng} {vs : List Nat}
    (h : Draws mode lo hi g vs g') : P g → P g' := by
  induction h with
  | nil => exact id
  | cons hd _ ih => exact fun h0 => ih (hP _ _ _ hd h0)

/-- All values of a series lie in the range (R50). -/
theorem Draws.mem {mode : RngMode} {lo hi : Nat} (hle : lo ≤ hi) {g g' : Rng} {vs : List Nat}
    (h : Draws mode lo hi g vs g') : ∀ v ∈ vs, lo ≤ v ∧ v ≤ hi := by
  induction h with
  | nil => simp
  | cons hd _ ih =>
    intro v hv
    rcases List.mem_cons.1 hv with rfl | hv
    · exact draw_mem hle hd
    · exact ih v hv

/-- Deterministic draws advance PRNG_STATE once each and ask the entropy source for nothing (R42). -/
theorem Draws.deterministic_rng {lo hi : Nat} {g g' : Rng} {vs : List Nat} (h : Draws .deterministic lo hi g vs g') :
    g' = { g with prngState := prngStep^[vs.length] g.prngState } := by
  induction h with
  | nil => rfl
  | cons hd _ ih => rw [ih, draw_deterministic_rng hd]; rfl

/-- An entropy draw neither reads nor writes PRNG_STATE (R42). -/
theorem draw_entropy_setPrng (lo hi : Nat) (g : Rng) (x : Word) :
    draw .entropy lo hi { g with prngState := x } =
      (draw .entropy lo hi g).map fun r => (r.1, { r.2 with prngState := x }) := by
  rcases g with ⟨y, as, c⟩
  rcases as with _ | ⟨_ | a, as⟩ <;> rfl

/-- A draw whose listed answer never comes (R245). -/
theorem draw_unanswered {lo hi : Nat} {g : Rng} {rest : List (Option Nat)} (h : g.answers = none :: rest) :
    draw .entropy lo hi g = none := by
  simp [draw, entropyAnswer, h]

/-! ### Rounds -/

/-- The rounds all pass exactly when that many drawn bases pass (R120). -/
theorem mrRounds_allPassed_iff (mode : RngMode) (n : Nat) : ∀ (k j : Nat) (g g' : Rng),
    mrRounds mode n k j g = some (.allPassed, g') ↔
      ∃ bases, Draws mode 2 (n - 2) g bases g' ∧ bases.length = k ∧ ∀ b ∈ bases, mrRound n b = true
  | 0, j, g, g' => by
    simp only [mrRounds, Option.some.injEq, Prod.mk.injEq, true_and]
    constructor
    · rintro rfl; exact ⟨[], .nil _, rfl, by simp⟩
    · rintro ⟨bases, hd, hl, -⟩
      obtain rfl := List.length_eq_zero_iff.1 hl
      exact (draws_nil_iff.1 hd).symm
  | k + 1, j, g, g' => by
    have hcons : (∃ bases, Draws mode 2 (n - 2) g bases g' ∧ bases.length = k + 1 ∧ ∀ b ∈ bases, mrRound n b = true) ↔
        ∃ a g1, draw mode 2 (n - 2) g = some (a, g1) ∧ mrRound n a = true ∧
          ∃ bases, Draws mode 2 (n - 2) g1 bases g' ∧ bases.length = k ∧ ∀ b ∈ bases, mrRound n b = true := by
      constructor
      · rintro ⟨bases, hd, hl, hp⟩
        cases bases with
        | nil => simp at hl
        | cons a bases =>
          obtain ⟨g1, h1, h2⟩ := draws_cons_iff.1 hd
          exact ⟨a, g1, h1, hp a (by simp), bases, h2, by simpa using hl, fun b hb => hp b (by simp [hb])⟩
      · rintro ⟨a, g1, h1, ha, bases, h2, hl, hp⟩
        exact ⟨a :: bases, .cons h1 h2, by simp [hl], fun b hb => by
          rcases List.mem_cons.1 hb with rfl | hb
          · exact ha
          · exact hp b hb⟩
    rw [hcons, mrRounds]
    cases hd : draw mode 2 (n - 2) g with
    | none => simp
    | some ag =>
      obtain ⟨a, g1⟩ := ag
      simp only [Option.some.injEq, Prod.mk.injEq]
      by_cases hr : mrRound n a = true
      · rw [if_pos hr, mrRounds_allPassed_iff mode n k (j + 1) g1 g']
        exact ⟨fun h => ⟨a, g1, ⟨rfl, rfl⟩, hr, h⟩, by rintro ⟨_, _, ⟨rfl, rfl⟩, -, h⟩; exact h⟩
      · rw [if_neg hr]
        constructor
        · intro h; simp at h
        · rintro ⟨_, _, ⟨rfl, rfl⟩, h, -⟩; exact absurd h hr

/-- The rounds end with a witness exactly when it is the first drawn base that fails (R120, fail-fast). -/
theorem mrRounds_witness_iff (mode : RngMode) (n a i : Nat) : ∀ (k j : Nat) (g g' : Rng),
    mrRounds mode n k j g = some (.witness a i, g') ↔
      ∃ bases, Draws mode 2 (n - 2) g (bases ++ [a]) g' ∧ bases.length < k ∧ i = j + bases.length ∧
        (∀ b ∈ bases, mrRound n b = true) ∧ mrRound n a = false
  | 0, j, g, g' => by
    simp [mrRounds]
  | k + 1, j, g, g' => by
    rw [mrRounds]
    cases hd : draw mode 2 (n - 2) g with
    | none =>
      simp only [reduceCtorEq, false_iff, not_exists]
      rintro bases ⟨h, -⟩
      cases bases with
      | nil => obtain ⟨_, h', -⟩ := draws_cons_iff.1 h; rw [hd] at h'; cases h'
      | cons b bases => obtain ⟨_, h', -⟩ := draws_cons_iff.1 h; rw [hd] at h'; cases h'
    | some ag =>
      obtain ⟨b, g1⟩ := ag
      simp only
      by_cases hr : mrRound n b = true
      · rw [if_pos hr, mrRounds_witness_iff mode n a i k (j + 1) g1 g']
        constructor
        · rintro ⟨bases, h1, h2, h3, h4, h5⟩
          refine ⟨b :: bases, .cons hd h1, by simpa using h2, by simp; omega, fun c hc => ?_, h5⟩
          rcases List.mem_cons.1 hc with rfl | hc
          · exact hr
          · exact h4 c hc
        · rintro ⟨bases, h1, h2, h3, h4, h5⟩
          cases bases with
          | nil =>
            obtain ⟨_, h', -⟩ := draws_cons_iff.1 h1
            rw [hd] at h'
            obtain ⟨rfl, -⟩ := Prod.mk.inj (Option.some.inj h')
            rw [hr] at h5; cases h5
          | cons c bases =>
            obtain ⟨_, h', h1'⟩ := draws_cons_iff.1 h1
            rw [hd] at h'
            obtain ⟨rfl, rfl⟩ := Prod.mk.inj (Option.some.inj h')
            exact ⟨bases, h1', by simpa using h2, by simp at h3; omega, fun c hc => h4 c (by simp [hc]), h5⟩
      · rw [if_neg hr]
        simp only [Option.some.injEq, Prod.mk.injEq, RoundsEnd.witness.injEq]
        constructor
        · rintro ⟨⟨rfl, rfl⟩, rfl⟩
          exact ⟨[], .cons hd (.nil _), by simp, by simp, by simp, by simpa using hr⟩
        · rintro ⟨bases, h1, h2, h3, h4, h5⟩
          cases bases with
          | nil =>
            obtain ⟨_, h', h1'⟩ := draws_cons_iff.1 h1
            rw [hd] at h'
            obtain ⟨rfl, rfl⟩ := Prod.mk.inj (Option.some.inj h')
            exact ⟨⟨rfl, by simpa using h3.symm⟩, (draws_nil_iff.1 h1').symm⟩
          | cons c bases =>
            obtain ⟨_, h', -⟩ := draws_cons_iff.1 h1
            rw [hd] at h'
            obtain ⟨rfl, rfl⟩ := Prod.mk.inj (Option.some.inj h')
            exact absurd (h4 b (by simp)) hr

/-- Rounds whose draws are all answered end (R101, R245). -/
theorem mrRounds_answered (mode : RngMode) (n : Nat) : ∀ (k j : Nat) (g : Rng), none ∉ g.answers →
    ∃ e g', mrRounds mode n k j g = some (e, g') ∧ none ∉ g'.answers
  | 0, j, g, h => ⟨_, g, rfl, h⟩
  | k + 1, j, g, h => by
    obtain ⟨a, g1, hd, h1⟩ := draw_answered mode 2 (n - 2) g h
    simp only [mrRounds, hd]
    split
    · exact mrRounds_answered mode n k (j + 1) g1 h1
    · exact ⟨_, g1, rfl, h1⟩

/-- A property that every draw keeps is kept over the rounds. -/
theorem mrRounds_keeps {mode : RngMode} {P : Rng → Prop}
    (hP : ∀ lo hi g v g', draw mode lo hi g = some (v, g') → P g → P g') {n : Nat} : ∀ {k j : Nat} {g g' : Rng}
    {e : RoundsEnd}, mrRounds mode n k j g = some (e, g') → P g → P g'
  | 0, j, g, g', e, h => by
    obtain ⟨-, rfl⟩ := Prod.mk.inj (Option.some.inj h)
    exact id
  | k + 1, j, g, g', e, h => by
    rw [mrRounds] at h
    split at h
    · cases h
    · next a g1 hd =>
      split at h
      · exact fun h0 => mrRounds_keeps hP h (hP _ _ _ _ _ hd h0)
      · obtain ⟨-, rfl⟩ := Prod.mk.inj (Option.some.inj h)
        exact hP _ _ _ _ _ hd

/-- How many deterministic draws a series of rounds makes: one for each round it runs (R120). -/
theorem mrRounds_draws {n k j : Nat} {g g' : Rng} {e : RoundsEnd}
    (h : mrRounds .deterministic n k j g = some (e, g')) :
    ∃ d ≤ k, g' = { g with prngState := prngStep^[d] g.prngState } ∧
      match e with
      | .allPassed => d = k
      | .witness _ i => 1 ≤ d ∧ i + 1 = j + d := by
  cases e with
  | allPassed =>
    obtain ⟨bases, hd, rfl, -⟩ := (mrRounds_allPassed_iff ..).1 h
    exact ⟨_, le_refl _, hd.deterministic_rng, rfl⟩
  | witness a i =>
    obtain ⟨bases, hd, hl, hi, -⟩ := (mrRounds_witness_iff ..).1 h
    exact ⟨_, by simpa using hl, hd.deterministic_rng, by simp, by simp; omega⟩

/-- Rounds in entropy mode neither read nor write PRNG_STATE (R42). -/
theorem mrRounds_entropy_setPrng (n : Nat) (x : Word) : ∀ (k j : Nat) (g : Rng),
    mrRounds .entropy n k j { g with prngState := x } =
      (mrRounds .entropy n k j g).map fun r => (r.1, { r.2 with prngState := x })
  | 0, _, _ => rfl
  | k + 1, j, g => by
    simp only [mrRounds, draw_entropy_setPrng]
    cases draw .entropy 2 (n - 2) g with
    | none => rfl
    | some r =>
      simp only [Option.map_some]
      split
      · exact mrRounds_entropy_setPrng n x k (j + 1) r.2
      · rfl

/-- Rounds whose bases pass up to a draw that is never answered do not end (R245). -/
theorem mrRounds_unanswered {mode : RngMode} {n : Nat} {g1 : Rng} (hn : draw mode 2 (n - 2) g1 = none) :
    ∀ {bases : List Nat} {k j : Nat} {g : Rng}, Draws mode 2 (n - 2) g bases g1 → bases.length < k →
      (∀ b ∈ bases, mrRound n b = true) → mrRounds mode n k j g = none
  | _, 0, _, _, _, hl, _ => absurd hl (Nat.not_lt_zero _)
  | [], k + 1, j, g, h, _, _ => by
    obtain rfl := draws_nil_iff.1 h
    simp [mrRounds, hn]
  | b :: bases, k + 1, j, g, h, hl, hp => by
    obtain ⟨g2, hd, ht⟩ := draws_cons_iff.1 h
    simp only [mrRounds, hd, hp b (by simp), if_true]
    exact mrRounds_unanswered hn ht (by simpa using hl) fun c hc => hp c (by simp [hc])

/-! ### The search -/

/-- A search whose draws are all answered ends (R101, R245). -/
theorem searchPrime_answered (mode : RngMode) (k : Nat) : ∀ (left i : Nat) (g : Rng), none ∉ g.answers →
    ∃ e g', searchPrime mode k left i g = some (e, g') ∧ none ∉ g'.answers
  | 0, i, g, h => ⟨_, g, rfl, h⟩
  | left + 1, i, g, h => by
    obtain ⟨u, g1, hd, h1⟩ := draw_answered mode 0 (2 ^ 31 - 1) g h
    obtain ⟨e, g2, hr, h2⟩ := mrRounds_answered mode (candidate u) k 1 g1 h1
    simp only [searchPrime, hd, hr]
    cases e with
    | witness a j => exact searchPrime_answered mode k left (i + 1) g2 h2
    | allPassed =>
      simp only
      split
      · exact ⟨_, g2, rfl, h2⟩
      · exact searchPrime_answered mode k left (i + 1) g2 h2

/-- A property that every draw keeps is kept over the search. -/
theorem searchPrime_keeps {mode : RngMode} {P : Rng → Prop}
    (hP : ∀ lo hi g v g', draw mode lo hi g = some (v, g') → P g → P g') {k : Nat} : ∀ {left i : Nat} {g g' : Rng}
    {e : SearchEnd}, searchPrime mode k left i g = some (e, g') → P g → P g'
  | 0, i, g, g', e, h => by
    obtain ⟨-, rfl⟩ := Prod.mk.inj (Option.some.inj h)
    exact id
  | left + 1, i, g, g', e, h => by
    rw [searchPrime] at h
    split at h
    · cases h
    · next u g1 hd =>
      have h1 := hP _ _ _ _ _ hd
      split at h
      · cases h
      · next g2 hr => exact fun h0 => searchPrime_keeps hP h (mrRounds_keeps hP hr (h1 h0))
      · next g2 hr =>
        split at h
        · obtain ⟨-, rfl⟩ := Prod.mk.inj (Option.some.inj h)
          exact fun h0 => mrRounds_keeps hP hr (h1 h0)
        · exact fun h0 => searchPrime_keeps hP h (mrRounds_keeps hP hr (h1 h0))

/-- What a search finds: a candidate that passed the acceptance checks, within its bound (R160, R164). -/
theorem searchPrime_found {mode : RngMode} {k p i : Nat} : ∀ {left j : Nat} {g g' : Rng},
    searchPrime mode k left j g = some (.found p i, g') →
      generatorOk p = true ∧ (∃ u ≤ 2 ^ 31 - 1, p = candidate u) ∧ j ≤ i ∧ i < j + left
  | 0, j, g, g', h => by
    have := (Prod.mk.inj (Option.some.inj h)).1
    cases this
  | left + 1, j, g, g', h => by
    rw [searchPrime] at h
    have later : ∀ {g2 : Rng}, searchPrime mode k left (j + 1) g2 = some (.found p i, g') →
        generatorOk p = true ∧ (∃ u ≤ 2 ^ 31 - 1, p = candidate u) ∧ j ≤ i ∧ i < j + (left + 1) := fun h' => by
      obtain ⟨h1, h2, h3, h4⟩ := searchPrime_found h'
      exact ⟨h1, h2, by omega, by omega⟩
    split at h
    · cases h
    · next u g1 hd =>
      split at h
      · cases h
      · exact later h
      · split at h
        · next hg =>
          obtain ⟨he, -⟩ := Prod.mk.inj (Option.some.inj h)
          obtain ⟨rfl, rfl⟩ := SearchEnd.found.inj he
          exact ⟨hg, ⟨u, (draw_mem (by omega) hd).2, rfl⟩, le_refl _, by omega⟩
        · exact later h

/-- The number of draws of a search over so many candidates, by how it ends: one for each candidate and one for each of
its rounds, of which a discarded candidate has one at least and a found one has k (R160, R162). -/
def SearchDraws (k left j d : Nat) : SearchEnd → Prop
  | .exhausted => 2 * left ≤ d ∧ d ≤ left * (k + 1)
  | .found _ i => j ≤ i ∧ i < j + left ∧ 2 * (i - j) + (k + 1) ≤ d ∧ d ≤ (i - j + 1) * (k + 1)

/-- A discarded candidate's draws before those of the rest of the search. -/
theorem SearchDraws.discard {k left j d d' : Nat} {e : SearchEnd} (h1 : 1 ≤ d) (h2 : d ≤ k)
    (h : SearchDraws k left (j + 1) d' e) : SearchDraws k (left + 1) j (d' + (d + 1)) e := by
  cases e with
  | exhausted => exact ⟨by have := h.1; omega, by have := h.2; rw [Nat.succ_mul]; omega⟩
  | found p i =>
    obtain ⟨a1, a2, a3, a4⟩ := h
    refine ⟨by omega, by omega, by omega, ?_⟩
    rw [show i - j + 1 = (i - (j + 1) + 1) + 1 by omega, Nat.succ_mul]
    omega

/-- Deterministic draws of a search (R42, R160). -/
theorem searchPrime_draws {k : Nat} (hk : 1 ≤ k) : ∀ {left j : Nat} {g g' : Rng} {e : SearchEnd},
    searchPrime .deterministic k left j g = some (e, g') →
    ∃ d, SearchDraws k left j d e ∧ g' = { g with prngState := prngStep^[d] g.prngState }
  | 0, j, g, g', e, h => by
    obtain ⟨rfl, rfl⟩ := Prod.mk.inj (Option.some.inj h)
    exact ⟨0, ⟨by omega, by omega⟩, rfl⟩
  | left + 1, j, g, g', e, h => by
    rw [searchPrime] at h
    have later : ∀ {u : Nat} {g1 g2 : Rng} {d : Nat}, draw .deterministic 0 (2 ^ 31 - 1) g = some (u, g1) →
        g2 = { g1 with prngState := prngStep^[d] g1.prngState } → 1 ≤ d → d ≤ k →
        searchPrime .deterministic k left (j + 1) g2 = some (e, g') →
        ∃ d, SearchDraws k (left + 1) j d e ∧ g' = { g with prngState := prngStep^[d] g.prngState } := by
      intro u g1 g2 d hd hg2 h1 h2 hs
      obtain ⟨d', he, hg'⟩ := searchPrime_draws hk hs
      refine ⟨_, he.discard h1 h2, ?_⟩
      rw [hg', hg2, draw_deterministic_rng hd, Function.iterate_add_apply, Function.iterate_succ_apply]
    split at h
    · cases h
    · next u g1 hd =>
      split at h
      · cases h
      · next g2 hr =>
        obtain ⟨d, h2, hg, h1, -⟩ := mrRounds_draws hr
        exact later hd hg h1 h2 h
      · next g2 hr =>
        obtain ⟨d, h2, hg, hdk⟩ := mrRounds_draws hr
        split at h
        · obtain ⟨rfl, rfl⟩ := Prod.mk.inj (Option.some.inj h)
          simp only at hdk
          refine ⟨d + 1, ⟨le_refl _, by omega, by omega, by rw [hdk]; simp⟩, ?_⟩
          rw [hg, draw_deterministic_rng hd, Function.iterate_succ_apply]
        · exact later hd hg (by simp only at hdk; omega) h2 h

/-- A search in entropy mode neither reads nor writes PRNG_STATE (R42). -/
theorem searchPrime_entropy_setPrng (k : Nat) (x : Word) : ∀ (left i : Nat) (g : Rng),
    searchPrime .entropy k left i { g with prngState := x } =
      (searchPrime .entropy k left i g).map fun r => (r.1, { r.2 with prngState := x })
  | 0, _, _ => rfl
  | left + 1, i, g => by
    simp only [searchPrime, draw_entropy_setPrng]
    rcases draw .entropy 0 (2 ^ 31 - 1) g with _ | ⟨u, g1⟩
    · rfl
    · simp only [Option.map_some, mrRounds_entropy_setPrng]
      rcases mrRounds .entropy (candidate u) k 1 g1 with _ | ⟨e, g2⟩
      · rfl
      · cases e with
        | witness a j => exact searchPrime_entropy_setPrng k x left (i + 1) g2
        | allPassed =>
          simp only [Option.map_some]
          split
          · rfl
          · exact searchPrime_entropy_setPrng k x left (i + 1) g2

end Sys2Proof.Machine
end

