-- ==== Sys2Proof/Laws/Exec.lean ====
section
/-! SUPPORT. Laws/Exec: how each command can end, one inversion lemma per meaning. A command ends with `finished` or
`failed`, on its own state but for the random-number state, or it stops because the entropy source never answers. -/

namespace Sys2Proof.Machine

/-- How a command can end: with results below 2^33, with one of the given errors, or stuck on an unanswered draw; the
random-number state after it meets a property. -/
inductive EndsWith (s : State) (errs : List ErrorKind) (R : Rng → Prop) : Result → Prop where
  | finished (g : Rng) (r0 r1 r2 : Nat) (hg : R g) (h0 : r0 < 2 ^ 33) (h1 : r1 < 2 ^ 33) (h2 : r2 < 2 ^ 33) :
      EndsWith s errs R (.next ({ s with rng := g }.finished r0 r1 r2))
  | failed (g : Rng) (e : ErrorKind) (hg : R g) (he : e ∈ errs) :
      EndsWith s errs R (.next ({ s with rng := g }.failed e))
  | stuck (h : none ∈ s.rng.answers) : EndsWith s errs R (.fault .entropyNeverAnswers)

/-- A next state of a command that ends so. -/
theorem EndsWith.next {s t : State} {errs : List ErrorKind} {R : Rng → Prop} (h : EndsWith s errs R (.next t)) :
    R t.rng ∧ ((∃ r0 r1 r2, r0 < 2 ^ 33 ∧ r1 < 2 ^ 33 ∧ r2 < 2 ^ 33 ∧
      t = { s with rng := t.rng }.finished r0 r1 r2) ∨ ∃ e ∈ errs, t = { s with rng := t.rng }.failed e) := by
  generalize ho : (Host.Outcome.next t : Result) = o at h
  cases h with
  | finished g r0 r1 r2 hg h0 h1 h2 => obtain rfl := Host.Outcome.next.inj ho; exact ⟨hg, .inl ⟨r0, r1, r2, h0, h1, h2, rfl⟩⟩
  | failed g e hg he => obtain rfl := Host.Outcome.next.inj ho; exact ⟨hg, .inr ⟨e, he, rfl⟩⟩
  | stuck => cases ho

/-- What a property of the random-number state must meet to be carried over a command of this mode. -/
def KeptByDraws (mode : RngMode) (P : Rng → Prop) : Prop :=
  ∀ lo hi g v g', draw mode lo hi g = some (v, g') → P g → P g'

section
variable {s : State} {errs : List ErrorKind} {R : Rng → Prop}

theorem endsWith_fail (e : ErrorKind) (hR : R s.rng) (he : e ∈ errs) : EndsWith s errs R (fail e s) := by
  rw [fail_eq]; exact .failed s.rng e hR he

theorem endsWith_finish {r0 r1 r2 : Nat} (hR : R s.rng) (h0 : r0 < 2 ^ 33) (h1 : r1 < 2 ^ 33) (h2 : r2 < 2 ^ 33) :
    EndsWith s errs R (finish r0 r1 r2 s) := by
  rw [finish_eq]; exact .finished s.rng r0 r1 r2 hR h0 h1 h2

end

theorem execModpow_ends (s : State) : EndsWith s (possibleErrors .modpow) (· = s.rng) (execModpow s) := by
  simp only [execModpow]
  split
  · exact endsWith_fail _ rfl (by decide)
  · next hw =>
    split
    · exact endsWith_fail _ rfl (by decide)
    · next hn =>
      obtain ⟨-, -, hc⟩ := (widthOk_iff .modpow s).1 (Bool.of_not_eq_false hw)
      exact endsWith_finish rfl (lt_trans (modpow_lt _ _ _ (by omega)) hc) (by decide) (by decide)

theorem execModinv_ends (s : State) : EndsWith s (possibleErrors .modinv) (· = s.rng) (execModinv s) := by
  simp only [execModinv]
  split
  · exact endsWith_fail _ rfl (by decide)
  · next hw =>
    split
    · exact endsWith_fail _ rfl (by decide)
    · next hn =>
      split
      · exact endsWith_fail _ rfl (by decide)
      · next hg =>
        obtain ⟨-, hb⟩ := (widthOk_iff .modinv s).1 (Bool.of_not_eq_false hw)
        have := (modinv_spec _ _ (by omega) hb (Nat.mod_lt _ (by omega)) (by simpa using hg)).2.1
        exact endsWith_finish rfl (lt_trans this hb) (by decide) (by decide)

theorem execMrround_ends (s : State) : EndsWith s (possibleErrors .mrround) (· = s.rng) (execMrround s) := by
  simp only [execMrround]
  split
  · exact endsWith_fail _ rfl (by decide)
  · next hw =>
    split
    · exact endsWith_fail _ rfl (by decide)
    · split
      · exact endsWith_fail _ rfl (by decide)
      · split
        · exact endsWith_finish rfl (by decide) (by decide) (by decide)
        · exact endsWith_finish rfl (by decide) ((widthOk_iff .mrround s).1 (Bool.of_not_eq_false hw)).2 (by decide)

theorem execMrtest_ends (s : State) (P : Rng → Prop) (hP : KeptByDraws s.lMode P) (h0 : P s.rng) :
    EndsWith s (possibleErrors .mrtest) P (execMrtest s) := by
  have hkmax : Config.kMax = 255 := rfl
  simp only [execMrtest]
  split
  · exact endsWith_fail _ h0 (by decide)
  · next hw =>
    obtain ⟨hn33, -⟩ := (widthOk_iff .mrtest s).1 (Bool.of_not_eq_false hw)
    split
    · exact endsWith_fail _ h0 (by decide)
    · next hk =>
      split
      · exact endsWith_fail _ h0 (by decide)
      · split
        · exact endsWith_finish h0 (by decide) (by decide) (by decide)
        · split
          · exact endsWith_finish h0 (by decide) (by decide) (by decide)
          · split
            · exact endsWith_finish h0 (by decide) (by decide) (by decide)
            · have hk33 : s.lop.b.toNat < 2 ^ 33 := by omega
              split
              · next hnone =>
                refine .stuck (by_contra fun h => ?_)
                obtain ⟨e, g', h', -⟩ := mrRounds_answered s.lMode s.lop.a.toNat s.lop.b.toNat 1 s.rng h
                rw [hnone] at h'; cases h'
              · next g hr =>
                rw [finish_eq]
                exact .finished g _ _ _ (mrRounds_keeps hP hr h0) (by decide) (by decide) hk33
              · next a j g hr =>
                rw [finish_eq]
                obtain ⟨bases, hd, hl, hj, -⟩ := (mrRounds_witness_iff _ _ _ _ _ _ _ _).1 hr
                have ha := (hd.mem (by omega) a (by simp)).2
                exact .finished g _ _ _ (mrRounds_keeps hP hr h0) (by decide) (by omega) (by omega)

theorem execFindprime_ends (s : State) (P : Rng → Prop) (hP : KeptByDraws s.lMode P) (h0 : P s.rng) :
    EndsWith s (possibleErrors .findprime) P (execFindprime s) := by
  simp only [execFindprime]
  split
  · exact endsWith_fail _ h0 (by decide)
  · next hw =>
    obtain ⟨-, hb33⟩ := (widthOk_iff .findprime s).1 (Bool.of_not_eq_false hw)
    split
    · exact endsWith_fail _ h0 (by decide)
    · split
      · exact endsWith_fail _ h0 (by decide)
      · split
        · exact endsWith_fail _ h0 (by decide)
        · split
          · next hnone =>
            refine .stuck (by_contra fun h => ?_)
            obtain ⟨e, g', h', -⟩ := searchPrime_answered s.lMode s.lop.a.toNat s.lop.b.toNat 1 s.rng h
            rw [hnone] at h'; cases h'
          · next p i g hr =>
            rw [finish_eq]
            obtain ⟨-, ⟨u, hu, rfl⟩, h1, h2⟩ := searchPrime_found hr
            exact .finished g _ _ _ (searchPrime_keeps hP hr h0) (by simp only [candidate]; omega) (by decide) (by omega)
          · next g hr =>
            rw [fail_eq]
            exact .failed g _ (searchPrime_keeps hP hr h0) (by decide)

theorem finishEncryption_ends (s s1 : State) (errs : List ErrorKind) (R : Rng → Prop) (g : Rng) (r : BitVec 33)
    (hs1 : s1 = { s with rng := g, lR := r }) (hR : R g) (hp : 3 ≤ s.lop.b.toNat) (hp33 : Fits s.lop.b) :
    EndsWith s errs R (finishEncryption s1) := by
  subst hs1
  simp only [finishEncryption]
  rw [finish_eq]
  exact .finished g _ _ _ hR (lt_trans (modpow_lt _ _ _ (by omega)) hp33) (lt_trans (Nat.mod_lt _ (by omega)) hp33)
    (by decide)

/-- The checks of ENCRYPT (R104, R180). -/
theorem encryptError_none {s : State} (h : encryptError s = none) :
    OperandsFit .encrypt s ∧ 3 ≤ s.lop.b.toNat ∧ SeedOk s ∧ s.lop.a.toNat < s.lop.b.toNat := by
  simp only [encryptError] at h
  repeat' (split at h; · cases h)
  next h1 h2 h3 h4 =>
    exact ⟨(widthOk_iff .encrypt s).1 (Bool.of_not_eq_false h1), by omega,
      (seedBad_eq_false_iff s).1 (by simpa using h3), by omega⟩

theorem encryptError_some {s : State} {e : ErrorKind} (h : encryptError s = some e) :
    e = .invalidArgument ∨ e = .blockTooLarge := by
  simp only [encryptError] at h
  repeat' (split at h; · simp_all)
  cases h

/-- The checks of ENCRYPT_R (R104, R185). -/
theorem encryptRError_none {s : State} (h : encryptRError s = none) :
    OperandsFit .encryptR s ∧ 3 ≤ s.lop.b.toNat ∧ 1 ≤ s.lop.e.toNat ∧ s.lop.e.toNat ≤ s.lop.b.toNat - 2 ∧
      s.lop.a.toNat < s.lop.b.toNat := by
  simp only [encryptRError] at h
  repeat' (split at h; · cases h)
  next h1 h2 h3 h4 =>
    exact ⟨(widthOk_iff .encryptR s).1 (Bool.of_not_eq_false h1), by omega, by omega, by omega, by omega⟩

theorem encryptRError_some {s : State} {e : ErrorKind} (h : encryptRError s = some e) :
    e = .invalidArgument ∨ e = .blockTooLarge := by
  simp only [encryptRError] at h
  repeat' (split at h; · simp_all)
  cases h

/-- ENCRYPT's draw: r is in L_R already, or it is drawn in [1, p − 2] (R182). -/
theorem drawEphemeral_some {s s1 : State} (h : drawEphemeral s = some s1) :
    (s.lR ≠ 0 ∧ s1 = s) ∨ ∃ r g, s.lR = 0 ∧ draw s.lMode 1 (s.lop.b.toNat - 2) s.rng = some (r, g) ∧
      s1 = { s with rng := g, lR := BitVec.ofNat 33 r } := by
  simp only [drawEphemeral] at h
  split at h
  · next h0 =>
    split at h
    · cases h
    · next r g hd => exact .inr ⟨r, g, h0, hd, (Option.some.inj h).symm⟩
  · next h0 => exact .inl ⟨h0, (Option.some.inj h).symm⟩

theorem drawEphemeral_none {s : State} (h : drawEphemeral s = none) : none ∈ s.rng.answers := by
  simp only [drawEphemeral] at h
  split at h
  · split at h
    · next hd =>
      refine by_contra fun hn => ?_
      obtain ⟨v, g, h', -⟩ := draw_answered s.lMode 1 (s.lop.b.toNat - 2) s.rng hn
      rw [hd] at h'; cases h'
    · cases h
  · cases h

theorem execEncrypt_ends (s : State) (P : Rng → Prop) (hP : KeptByDraws s.lMode P) (h0 : P s.rng) :
    EndsWith s (possibleErrors .encrypt) P (execEncrypt s) := by
  simp only [execEncrypt]
  split
  · next e he => exact endsWith_fail _ h0 (by rcases encryptError_some he with rfl | rfl <;> decide)
  · next he =>
    obtain ⟨hf, hp, -, -⟩ := encryptError_none he
    split
    · next hn => exact .stuck (drawEphemeral_none hn)
    · next s1 hs =>
      rcases drawEphemeral_some hs with ⟨-, rfl⟩ | ⟨r, g, -, hd, rfl⟩
      · exact finishEncryption_ends _ _ _ _ _ _ rfl h0 hp hf.2.1
      · exact finishEncryption_ends _ _ _ _ _ _ rfl (hP _ _ _ _ _ hd h0) hp hf.2.1

theorem execEncryptR_ends (s : State) : EndsWith s (possibleErrors .encryptR) (· = s.rng) (execEncryptR s) := by
  simp only [execEncryptR]
  split
  · next e he => exact endsWith_fail _ rfl (by rcases encryptRError_some he with rfl | rfl <;> decide)
  · next he =>
    obtain ⟨hf, hp, -⟩ := encryptRError_none he
    exact finishEncryption_ends s _ _ _ s.rng (BitVec.ofNat 33 s.lop.e.toNat) rfl rfl hp hf.2.1

theorem execDecrypt_ends (s : State) : EndsWith s (possibleErrors .decrypt) (· = s.rng) (execDecrypt s) := by
  simp only [execDecrypt]
  split
  · exact endsWith_fail _ rfl (by decide)
  · next hw =>
    obtain ⟨-, -, hc, -⟩ := (widthOk_iff .decrypt s).1 (Bool.of_not_eq_false hw)
    split
    · exact endsWith_fail _ rfl (by decide)
    · split
      · exact endsWith_fail _ rfl (by decide)
      · split
        · exact endsWith_fail _ rfl (by decide)
        · exact endsWith_finish rfl (lt_trans (Nat.mod_lt _ (by omega)) hc) (by decide) (by decide)

/-- How any command ends: every property of the random-number state that draws keep is kept. -/
theorem exec_ends (i : Instr) (s : State) (P : Rng → Prop) (hP : KeptByDraws s.lMode P) (h0 : P s.rng) :
    EndsWith s (possibleErrors i) P (exec i s) := by
  have weaken : ∀ {errs o}, EndsWith s errs (· = s.rng) o → EndsWith s errs P o := by
    intro errs o h
    cases h with
    | finished g r0 r1 r2 hg h1 h2 h3 => exact .finished g r0 r1 r2 (hg ▸ h0) h1 h2 h3
    | failed g e hg he => exact .failed g e (hg ▸ h0) he
    | stuck h => exact .stuck h
  cases i with
  | modpow => exact weaken (execModpow_ends s)
  | modinv => exact weaken (execModinv_ends s)
  | mrtest => exact execMrtest_ends s P hP h0
  | mrround => exact weaken (execMrround_ends s)
  | findprime => exact execFindprime_ends s P hP h0
  | encrypt => exact execEncrypt_ends s P hP h0
  | encryptR => exact weaken (execEncryptR_ends s)
  | decrypt => exact weaken (execDecrypt_ends s)

/-! ### What a command reads (R47, R92) -/

/-- Two commands end alike: with the same results or the same error, and the same random-number state after them. -/
inductive EndAlike (s u : State) : Result → Result → Prop where
  | finished (g : Rng) (r0 r1 r2 : Nat) (t v : State) (ht : t = { s with rng := g }.finished r0 r1 r2)
      (hv : v = { u with rng := g }.finished r0 r1 r2) : EndAlike s u (.next t) (.next v)
  | failed (g : Rng) (e : ErrorKind) (t v : State) (ht : t = { s with rng := g }.failed e)
      (hv : v = { u with rng := g }.failed e) : EndAlike s u (.next t) (.next v)
  | stuck : EndAlike s u (.fault .entropyNeverAnswers) (.fault .entropyNeverAnswers)

section
variable {s u : State}

theorem endAlike_fail (hr : s.rng = u.rng) (e : ErrorKind) : EndAlike s u (fail e s) (fail e u) := by
  rw [fail_eq, fail_eq]
  exact .failed s.rng e _ _ rfl (by rw [hr])

theorem endAlike_finish (hr : s.rng = u.rng) (r0 r1 r2 : Nat) :
    EndAlike s u (finish r0 r1 r2 s) (finish r0 r1 r2 u) := by
  rw [finish_eq, finish_eq]
  exact .finished s.rng r0 r1 r2 _ _ rfl (by rw [hr])

theorem endAlike_finish_at (r0 r1 r2 : Nat) {s1 u1 : State} (hs : s1 = { s with rng := s1.rng, lR := s1.lR })
    (hu : u1 = { u with rng := s1.rng, lR := u1.lR }) : EndAlike s u (finish r0 r1 r2 s1) (finish r0 r1 r2 u1) := by
  rw [finish_eq, finish_eq]
  exact .finished s1.rng r0 r1 r2 _ _ (by rw [hs]; rfl) (by rw [hu]; rfl)

theorem endAlike_fail_at (e : ErrorKind) {s1 u1 : State} (hs : s1 = { s with rng := s1.rng })
    (hu : u1 = { u with rng := s1.rng }) : EndAlike s u (fail e s1) (fail e u1) := by
  rw [fail_eq, fail_eq]
  exact .failed s1.rng e _ _ (by rw [← hs]) (by rw [← hu])

/-- A command reads the operands of its format, L_MODE, the random-number state and L_R, and nothing else. -/
theorem exec_alike (i : Instr) (hop : ∀ x ∈ formatOperands i.format, s.lop.get x = u.lop.get x)
    (hm : s.lMode = u.lMode) (hr : s.rng = u.rng) (hR : s.lR = u.lR) : EndAlike s u (exec i s) (exec i u) := by
  have hw : widthOk i.format s.lop = widthOk i.format u.lop := by
    cases i <;> simp [Instr.format, formatOperands] at hop <;>
      simp [widthOk, Instr.format, formatOperands, hop]
  have hseed : seedBad s = seedBad u := by simp only [seedBad, hm, hr]
  have ha : s.lop.a = u.lop.a := hop .a (by cases i <;> decide)
  have hb : s.lop.b = u.lop.b := hop .b (by cases i <;> decide)
  cases i with
  | modpow =>
    have hc : s.lop.c = u.lop.c := hop .c (by decide)
    simp only [exec, execModpow, hw, ha, hb, hc]
    repeat' split
    all_goals first | exact endAlike_fail hr _ | exact endAlike_finish hr _ _ _
  | modinv =>
    simp only [exec, execModinv, hw, ha, hb]
    repeat' split
    all_goals first | exact endAlike_fail hr _ | exact endAlike_finish hr _ _ _
  | mrround =>
    simp only [exec, execMrround, hw, ha, hb]
    repeat' split
    all_goals first | exact endAlike_fail hr _ | exact endAlike_finish hr _ _ _
  | decrypt =>
    have hc : s.lop.c = u.lop.c := hop .c (by decide)
    have hd : s.lop.d = u.lop.d := hop .d (by decide)
    simp only [exec, execDecrypt, hw, ha, hb, hc, hd]
    repeat' split
    all_goals first | exact endAlike_fail hr _ | exact endAlike_finish hr _ _ _
  | mrtest =>
    simp only [exec, execMrtest, hw, ha, hb, hseed, hm, hr]
    repeat' split
    all_goals first
      | exact endAlike_fail hr _
      | exact endAlike_finish hr _ _ _
      | exact .stuck
      | exact endAlike_finish_at _ _ _ (by simp [hm]) (by simp)
  | findprime =>
    simp only [exec, execFindprime, hw, ha, hb, hseed, hm, hr]
    repeat' split
    all_goals first
      | exact endAlike_fail hr _
      | exact .stuck
      | exact endAlike_finish_at _ _ _ (by simp [hm]) (by simp)
      | exact endAlike_fail_at _ (by simp [hm]) (by simp)
  | encrypt =>
    have hc : s.lop.c = u.lop.c := hop .c (by decide)
    have hd : s.lop.d = u.lop.d := hop .d (by decide)
    have he : encryptError s = encryptError u := by simp only [encryptError, hw, ha, hb, hseed]
    simp only [exec, execEncrypt, he]
    split
    · exact endAlike_fail hr _
    · simp only [drawEphemeral, hm, hr, hR, hb]
      by_cases h0 : u.lR = 0
      · simp only [h0, if_true]
        cases hdr : draw u.lMode 1 (u.lop.b.toNat - 2) u.rng with
        | none => exact .stuck
        | some vg =>
          simp only [finishEncryption, ha, hb, hc, hd]
          exact endAlike_finish_at _ _ _ (by simp [hm]) (by simp)
      · simp only [h0, if_false, finishEncryption, ha, hb, hc, hd, hR]
        exact endAlike_finish hr _ _ _
  | encryptR =>
    have hc : s.lop.c = u.lop.c := hop .c (by decide)
    have hd : s.lop.d = u.lop.d := hop .d (by decide)
    have hee : s.lop.e = u.lop.e := hop .e (by decide)
    have he : encryptRError s = encryptRError u := by simp only [encryptRError, hw, ha, hb, hee]
    simp only [exec, execEncryptR, he]
    split
    · exact endAlike_fail hr _
    · simp only [finishEncryption, takeEphemeral, ha, hb, hc, hd, hee]
      exact endAlike_finish_at _ _ _ (by simp [hr]) (by simp [hr])

end

/-! ### PRNG_STATE in entropy mode (R42) -/

/-- The state with another PRNG_STATE. -/
def State.setPrng (s : State) (x : Word) : State := { s with rng := { s.rng with prngState := x } }

/-- A result with another PRNG_STATE in its next state. -/
def setPrngAfter (x : Word) : Result → Result
  | .next t => .next (t.setPrng x)
  | .fault f => .fault f
  | .refused r => .refused r

/-- In entropy mode a command neither reads nor writes PRNG_STATE (R42). -/
theorem exec_entropy_setPrng (i : Instr) (s : State) (x : Word) (hm : s.lMode = .entropy) :
    exec i (s.setPrng x) = setPrngAfter x (exec i s) := by
  have hs : seedBad (s.setPrng x) = seedBad s := by simp [seedBad, State.setPrng, hm]
  have hl : (s.setPrng x).lop = s.lop := rfl
  have hM : (s.setPrng x).lMode = s.lMode := rfl
  have hR : (s.setPrng x).lR = s.lR := rfl
  have hr : (s.setPrng x).rng = { s.rng with prngState := x } := rfl
  have he : encryptError (s.setPrng x) = encryptError s := by simp only [encryptError, hl, hs]
  have heR : encryptRError (s.setPrng x) = encryptRError s := by simp only [encryptRError, hl]
  cases i with
  | modpow =>
    simp only [exec, execModpow, hl]
    repeat' split
    all_goals rfl
  | modinv =>
    simp only [exec, execModinv, hl]
    repeat' split
    all_goals rfl
  | mrround =>
    simp only [exec, execMrround, hl]
    repeat' split
    all_goals rfl
  | decrypt =>
    simp only [exec, execDecrypt, hl]
    repeat' split
    all_goals rfl
  | encryptR => simp only [exec, execEncryptR, heR]; split <;> rfl
  | encrypt =>
    simp only [exec, execEncrypt, he]
    split
    · rfl
    · simp only [drawEphemeral, hR, hM, hl, hr, hm, draw_entropy_setPrng]
      by_cases h0 : s.lR = 0
      · rw [if_pos h0, if_pos h0]
        rcases draw .entropy 1 (s.lop.b.toNat - 2) s.rng with _ | ⟨r, g⟩ <;> rfl
      · rw [if_neg h0, if_neg h0]; rfl
  | mrtest =>
    simp only [exec, execMrtest, hl, hs, hM, hr, hm, mrRounds_entropy_setPrng]
    rcases mrRounds .entropy s.lop.a.toNat s.lop.b.toNat 1 s.rng with _ | ⟨_ | ⟨a, j⟩, g⟩ <;>
      simp only [Option.map_none, Option.map_some]
    all_goals repeat' split
    all_goals rfl
  | findprime =>
    simp only [exec, execFindprime, hl, hs, hM, hr, hm, searchPrime_entropy_setPrng]
    rcases searchPrime .entropy s.lop.a.toNat s.lop.b.toNat 1 s.rng with _ | ⟨⟨p, j⟩ | _, g⟩ <;>
      simp only [Option.map_none, Option.map_some]
    all_goals repeat' split
    all_goals rfl

end Sys2Proof.Machine
end

