-- ==== Sys2Proof/Laws/PerInstr.lean ====
section
/-! SUPPORT. Laws/PerInstr: what is said of every command as syntax, one lemma per constructor. -/

namespace Sys2Proof.Laws.Encoding

/-- The command is well formed, its word is legal, decodes to the command and to no other, meets the command's row of
the opcode table, and the format of that row is the command's (R90 to R94). -/
def Statement (i : Instr) : Prop :=
  i.wf = true ∧ wfCommandWord (encode i) = true ∧ (∀ w, decode w = .ok i ↔ w = encode i) ∧
    ∃ row ∈ opcodeTable, row.instr = i ∧ row.format = i.format ∧ encode i &&& row.mask = row.pattern

/-- A word is MBZ followed by OPCODE (R90). -/
theorem eq_of_fields {w v : Word} (hm : mbzOf w = mbzOf v) (ho : opcodeOf w = opcodeOf v) : w = v := by
  apply BitVec.eq_of_toNat_eq
  have hm := congrArg BitVec.toNat hm
  have ho := congrArg BitVec.toNat ho
  simp only [mbzOf, opcodeOf, BitVec.extractLsb'_toNat, Nat.shiftRight_eq_div_pow] at hm ho
  omega

/-- The opcode map is read back from its numbers. -/
theorem opcode_of_instr {op : BitVec 8} {i : Instr} (h : instrOfOpcode op = some i) : op = opcodeOf (encode i) := by
  apply BitVec.eq_of_toNat_eq
  simp only [instrOfOpcode] at h
  split at h <;> first | (obtain rfl := Option.some.inj h; simpa [opcodeOf, encode]) | cases h

theorem decode_iff (w : Word) (i : Instr) : decode w = .ok i ↔ w = encode i := by
  constructor
  · intro h
    simp only [decode] at h
    split at h
    · next hm =>
      split at h
      · next j hj =>
        obtain rfl := Except.ok.inj h
        exact eq_of_fields (hm.trans (by cases j <;> decide)) (opcode_of_instr hj)
      · cases h
    · cases h
  · rintro rfl; cases i <;> decide

theorem of_row {i : Instr} (h : i.wf = true ∧ wfCommandWord (encode i) = true)
    (hr : ∃ row ∈ opcodeTable, row.instr = i ∧ row.format = i.format ∧ encode i &&& row.mask = row.pattern) :
    Statement i := ⟨h.1, h.2, fun w => decode_iff w i, hr⟩

theorem modpow : Statement .modpow := of_row (by decide) (by decide)
theorem modinv : Statement .modinv := of_row (by decide) (by decide)
theorem mrtest : Statement .mrtest := of_row (by decide) (by decide)
theorem mrround : Statement .mrround := of_row (by decide) (by decide)
theorem findprime : Statement .findprime := of_row (by decide) (by decide)
theorem encrypt : Statement .encrypt := of_row (by decide) (by decide)
theorem encryptR : Statement .encryptR := of_row (by decide) (by decide)
theorem decrypt : Statement .decrypt := of_row (by decide) (by decide)

end Sys2Proof.Laws.Encoding
end

