-- ==== Sys2Proof/Laws/Step.lean ====
section
/-! SUPPORT. Laws/Step: what a step can do, said once: the move it takes and the state it leaves. -/

namespace Sys2Proof.Machine

/-- The moves a step can take to a next state. -/
inductive StepTakes (s t : State) : Prop where
  /-- Nothing runs, and the sequencer's turn changes nothing but the moves to come. -/
  | idleTurn (hi : s.inputs = [] ∨ ∃ rest, s.inputs = .complete :: rest) (hs : s.seq = .idle)
      (ht : t = { s with inputs := s.inputs.tail })
  /-- The running command completes. -/
  | completion (hi : s.inputs = [] ∨ ∃ rest, s.inputs = .complete :: rest) (hs : s.seq = .busy)
      (ht : runCommand { s with inputs := s.inputs.tail } = .next t)
  /-- The host performs an access. -/
  | access (a : Access) (rest : List Event) (hi : s.inputs = .access a :: rest)
      (ht : hostAccess a { s with inputs := rest } = .next t)
  /-- The sequencer gets r into L_R. -/
  | latchR (rest : List Event) (hi : s.inputs = .latchR :: rest) (ht : t = latchEphemeral { s with inputs := rest })
  /-- The reset input. -/
  | reset (rest : List Event) (hi : s.inputs = .reset :: rest) (ht : t = resetCore { s with inputs := rest })

theorem step_takes {s t : State} (h : step s = .next t) : StepTakes s t := by
  have turn : (s.inputs = [] ∨ ∃ rest, s.inputs = .complete :: rest) →
      sequencerTurn { s with inputs := s.inputs.tail } = .next t → StepTakes s t := by
    intro hi ht
    cases hs : s.seq with
    | idle => exact .idleTurn hi hs (by simpa [sequencerTurn, hs, eq_comm] using ht)
    | busy => exact .completion hi hs (by simpa [sequencerTurn, hs] using ht)
  cases hi : s.inputs with
  | nil =>
    refine turn (.inl hi) ?_
    have : ({ s with inputs := s.inputs.tail } : State) = s := by rw [hi]; cases s; simp_all
    rwa [this, ← show step s = sequencerTurn s by simp [step, hi]]
  | cons e rest =>
    have hm : move e { s with inputs := rest } = .next t := by simpa [step, hi] using h
    cases e with
    | access a => exact .access a rest hi hm
    | complete => exact turn (.inr ⟨rest, hi⟩) (by simpa [move, hi] using hm)
    | latchR => exact .latchR rest hi (Host.Outcome.next.inj hm).symm
    | reset => exact .reset rest hi (Host.Outcome.next.inj hm).symm

/-- How the running command can end, an illegal word included (R95, R205, R206). -/
theorem runCommand_next {s t : State} (h : runCommand s = .next t) :
    (∃ r0 r1 r2, r0 < 2 ^ 33 ∧ r1 < 2 ^ 33 ∧ r2 < 2 ^ 33 ∧ t = State.finished { s with rng := t.rng } r0 r1 r2) ∨
      ∃ e, t = State.failed { s with rng := t.rng } e := by
  simp only [runCommand] at h
  split at h
  · next i hd =>
    have he := exec_ends i s (fun _ => True) (fun _ _ _ _ _ _ _ => trivial) trivial
    rw [h] at he
    rcases he.next.2 with hf | ⟨e, -, ht⟩
    · exact .inl hf
    · exact .inr ⟨e, ht⟩
  · rw [fail_eq] at h
    obtain rfl := Host.Outcome.next.inj h
    exact .inr ⟨_, rfl⟩

/-- What the sequencer's early step can do (R46): nothing, or get r into L_R for a running ENCRYPT or ENCRYPT_R whose
checks passed. -/
theorem latchEphemeral_cases (s : State) :
    latchEphemeral s = s ∨
    (s.seq = .busy ∧ decode s.lastCmd = .ok .encrypt ∧ encryptError s = none ∧ s.lR = 0 ∧
      ∃ r g, draw s.lMode 1 (s.lop.b.toNat - 2) s.rng = some (r, g) ∧
        latchEphemeral s = { s with rng := g, lR := BitVec.ofNat 33 r }) ∨
    (s.seq = .busy ∧ decode s.lastCmd = .ok .encryptR ∧ encryptRError s = none ∧
      latchEphemeral s = { s with lR := BitVec.ofNat 33 s.lop.e.toNat }) := by
  cases hs : s.seq with
  | idle => exact .inl (by simp [latchEphemeral, hs])
  | busy =>
    cases hd : decode s.lastCmd with
    | error e => exact .inl (by simp [latchEphemeral, hs, hd])
    | ok i =>
      cases i
      case encrypt =>
        cases he : encryptError s with
        | some e => exact .inl (by simp [latchEphemeral, hs, hd, he])
        | none =>
          cases hr : drawEphemeral s with
          | none => exact .inl (by simp [latchEphemeral, hs, hd, he, hr])
          | some s1 =>
            have hl : latchEphemeral s = s1 := by simp [latchEphemeral, hs, hd, he, hr]
            rcases drawEphemeral_some hr with ⟨-, rfl⟩ | ⟨r, g, h0, hdr, rfl⟩
            · exact .inl hl
            · exact .inr (.inl ⟨rfl, rfl, rfl, h0, r, g, hdr, by rw [hl, hs]⟩)
      case encryptR =>
        cases he : encryptRError s with
        | some e => exact .inl (by simp [latchEphemeral, hs, hd, he])
        | none => exact .inr (.inr ⟨rfl, rfl, rfl, by simp [latchEphemeral, hs, hd, he, takeEphemeral]⟩)
      all_goals exact .inl (by simp [latchEphemeral, hs, hd])

/-- An r of [1, p − 2] is kept whole in L_R's 33 bits (R43, R46). -/
theorem ephemeral_toNat {r p : Nat} (hr : r ≤ p - 2) (hp : p < 2 ^ 33) : (BitVec.ofNat 33 r).toNat = r := by
  rw [BitVec.toNat_ofNat, Nat.mod_eq_of_lt (by omega)]

theorem ephemeral_ne_zero {r p : Nat} (h1 : 1 ≤ r) (hr : r ≤ p - 2) (hp : p < 2 ^ 33) : BitVec.ofNat 33 r ≠ 0 := by
  intro h
  have := congrArg BitVec.toNat h
  rw [ephemeral_toNat hr hp] at this
  simp at this
  omega

/-- The checks of ENCRYPT read only the latched operands and what the seed check reads. -/
theorem encryptError_congr {s u : State} (hl : u.lop = s.lop) (hs : seedBad u = seedBad s) :
    encryptError u = encryptError s := by
  simp only [encryptError, hl, hs]

/-- The checks of ENCRYPT_R read only the latched operands. -/
theorem encryptRError_congr {s u : State} (hl : u.lop = s.lop) : encryptRError u = encryptRError s := by
  simp only [encryptRError, hl]

/-- The early step of ENCRYPT does not disturb its checks: the seed stays nonzero (R52, R53). -/
theorem encryptError_latched {s : State} {r : BitVec 33} {v lo hi : Nat} {g : Rng} (he : encryptError s = none)
    (hd : draw s.lMode lo hi s.rng = some (v, g)) : encryptError { s with rng := g, lR := r } = none := by
  have hseed := (encryptError_none he).2.2.1
  rw [← he]
  refine encryptError_congr rfl ?_
  rw [(seedBad_eq_false_iff s).2 hseed, seedBad_eq_false_iff]
  exact draw_keeps_seed hd hseed

end Sys2Proof.Machine
end

