-- ==== Sys2Proof/Tests/Slice0.lean ====
section
/-! SUPPORT. Tests: expected values from spec/95_test_vectors.md and from the encodings of spec/30_encoding.md; one step
each. After them, for each obligation with hypotheses, states and operands that meet them together. -/

namespace Sys2Proof.Tests

open Sys2Proof Sys2Proof.Machine

/-! ### Helpers -/

/-- A command running on given operands, in entropy mode with given answers. -/
def ent (i : Instr) (a b c d e : Nat) (answers : List (Option Nat)) : State :=
  { State.reset with
    seq := .busy
    lastCmd := encode i
    lop := ⟨BitVec.ofNat 64 a, BitVec.ofNat 64 b, BitVec.ofNat 64 c, BitVec.ofNat 64 d, BitVec.ofNat 64 e⟩
    rng := ⟨0, answers, 0⟩ }

/-- A command running on given operands, in deterministic mode from a seed. -/
def det (i : Instr) (a b c d e : Nat) (seed : Word) : State :=
  { ent i a b c d e [] with lMode := .deterministic, rng := ⟨seed, [], 0⟩ }

/-- The state a result goes on with. -/
def nextOf : Result → Option State
  | .next t => some t
  | .fault _ => none
  | .refused _ => none

/-- RES0, RES1, RES2, ERRCODE and PRNG_STATE after a command. -/
def outcome (i : Instr) (s : State) : Option (Nat × Nat × Nat × Nat × Nat) :=
  (nextOf (exec i s)).map fun t =>
    (t.res0.toNat, t.res1.toNat, t.res2.toNat, t.errcodeWord.toNat, t.rng.prngState.toNat)

/-- What the next state of a result satisfies. -/
def nextIs (o : Result) (p : State → Bool) : Bool := (nextOf o).any p

theorem exists_next {o : Result} {p : State → Bool} (h : nextIs o p = true) : ∃ t, o = .next t ∧ p t = true := by
  cases o with
  | next t => exact ⟨t, rfl, h⟩
  | fault f => cases h
  | refused r => cases h

/-! ### Well-formedness: ill-formed terms are refused -/

theorem test_wf_word_opcode_zero : wfCommandWord 0x0000000000000000 = false := by decide
theorem test_wf_word_opcode_nine : wfCommandWord 0x0000000000000009 = false := by decide
theorem test_wf_word_mbz : wfCommandWord 0x0000000000000101 = false := by decide
theorem test_wf_word_top_bit : wfCommandWord 0x8000000000000001 = false := by decide
theorem test_wf_access_width : Access.wf ⟨.w32, 0x08, .read⟩ = false := by decide
theorem test_wf_access_alignment : Access.wf ⟨.w64, 0x0C, .read⟩ = false := by decide
theorem test_wf_access_outside : Access.wf ⟨.w64, 0x80, .read⟩ = false := by decide

/-! ### Decoding: every command's word, bits 63:8 zero and bits 7:0 the OPCODE of R92 -/

theorem test_decode_modpow : decode (0#56 ++ 0b00000001#8) = .ok .modpow := by decide
theorem test_decode_modinv : decode (0#56 ++ 0b00000010#8) = .ok .modinv := by decide
theorem test_decode_mrtest : decode (0#56 ++ 0b00000011#8) = .ok .mrtest := by decide
theorem test_decode_mrround : decode (0#56 ++ 0b00000100#8) = .ok .mrround := by decide
theorem test_decode_findprime : decode (0#56 ++ 0b00000101#8) = .ok .findprime := by decide
theorem test_decode_encrypt : decode (0#56 ++ 0b00000110#8) = .ok .encrypt := by decide
theorem test_decode_encryptR : decode (0#56 ++ 0b00000111#8) = .ok .encryptR := by decide
theorem test_decode_decrypt : decode (0#56 ++ 0b00001000#8) = .ok .decrypt := by decide
theorem test_decode_reserved : decode 0x09 = .error .reservedOpcode := by decide
theorem test_decode_mbz : decode 0x101 = .error .mbzNotZero := by decide
theorem test_decode_lanes : decodeBytes [0x05, 0, 0, 0, 0, 0, 0, 0] = .ok .findprime := by decide
theorem test_decode_short : decodeBytes [0x05] = .error .notOneWord := by decide
theorem test_decode_table_word : decodeTableWord 64 7 = some .encryptR := by decide
theorem test_decode_table_word_reserved : decodeTableWord 64 0 = none := by decide

/-! ### The PRNG (section 2 of the vectors) -/

theorem test_prng_step : prngStep 1 = 0x40822041 := by decide
theorem test_prng_step_again : prngStep 0x1000_4106_0C01_1441 = 0x9B1E_842F_6E86_2629 := by decide
theorem test_draw : draw .deterministic 2 7 ⟨1, [], 0⟩ = some (5, ⟨0x40822041, [], 0⟩) := by decide

/-! ### The commands (section 3 of the vectors) -/

/-- V-MP-1. -/
theorem test_modpow : outcome .modpow (ent .modpow 2 6 23 0 0 []) = some (18, 0, 0, 0, 0) := by decide
/-- V-MP-8. -/
theorem test_modpow_all_ones : outcome .modpow (ent .modpow 3 8589934591 8589934591 0 0 []) =
    some (6161773096, 0, 0, 0, 0) := by decide
/-- V-MI-6. -/
theorem test_modinv : outcome .modinv (ent .modinv 2 9 0 0 0 []) = some (5, 0, 0, 0, 0) := by decide
/-- V-MI-9. -/
theorem test_modinv_none : outcome .modinv (ent .modinv 6 9 0 0 0 []) = some (0, 0, 0, 2, 0) := by decide
/-- V-MR-3. -/
theorem test_mrround : outcome .mrround (ent .mrround 2047 2 0 0 0 []) = some (1, 0, 1, 0, 0) := by decide
/-- V-MR-6d. -/
theorem test_mrround_base_too_large : outcome .mrround (ent .mrround 9 8 0 0 0 []) = some (0, 0, 0, 1, 0) := by decide
/-- V-MR-8. -/
theorem test_mrtest : outcome .mrtest (det .mrtest 561 5 0 0 0 1) =
    some (0, 269, 3, 0, 0x9B1E_842F_6E86_2629) := by decide
/-- V-MR-19. -/
theorem test_mrtest_seed : outcome .mrtest (det .mrtest 2 1 0 0 0 0) = some (0, 0, 0, 1, 0) := by decide
/-- V-FP-4, with the search stopped at its first candidate: u = 1453195700 and the base 4066557813 of V-FP-2's detail. -/
theorem test_findprime_failed : outcome .findprime (ent .findprime 20 1 0 0 0 [some 1453195700, some 4066557813]) =
    some (0, 0, 0, 5, 0) := by decide
/-- V-FP-5. -/
theorem test_findprime_rounds : outcome .findprime (det .findprime 19 1000 0 0 0 1) = some (0, 0, 0, 1, 1) := by decide
/-- V-EG-4. -/
theorem test_encrypt : outcome .encrypt (det .encrypt 10 23 2 18 0 1) = some (13, 14, 0, 0, 0x40822041) := by decide
/-- V-EG-10e. -/
theorem test_encrypt_block : outcome .encrypt (det .encrypt 23 23 2 18 0 1) = some (0, 0, 0, 3, 1) := by decide
/-- V-EG-1. -/
theorem test_encryptR : outcome .encryptR (ent .encryptR 10 23 2 18 3 []) = some (8, 15, 0, 0, 0) := by decide
/-- V-EG-10b. -/
theorem test_encryptR_order : outcome .encryptR (ent .encryptR 23 23 2 18 0 []) = some (0, 0, 0, 1, 0) := by decide
/-- V-EG-2. -/
theorem test_decrypt : outcome .decrypt (ent .decrypt 8 15 23 6 0 []) = some (10, 0, 0, 0, 0) := by decide
/-- V-EG-17. -/
theorem test_decrypt_no_inverse : outcome .decrypt (ent .decrypt 6 1 9 1 0 []) = some (0, 0, 0, 2, 0) := by decide

/-! ### Words, registers and the step (section 3.7 of the vectors) -/

/-- V-CMD-2: an illegal word completes with IllegalCommand. -/
theorem test_illegal_word : nextIs (step (State.reset.withFetchWord 64 9))
    (fun t => decide (t.errcodeWord = 6) && decide (t.lastCmd = 9) && t.done) = true := by decide
/-- The step after `withFetchWord` runs the command: MODPOW on operands 0 is InvalidArgument (n < 2). -/
theorem test_placed_word : nextIs (step (State.reset.withFetchWord 64 1))
    (fun t => decide (t.errcodeWord = 1) && decide (t.lastCmd = 1) && t.done) = true := by decide
/-- V-CMD-4. -/
theorem test_cmd_while_busy : nextIs (hostAccess ⟨.w64, 0x20, .write 1⟩ (ent .decrypt 0 0 0 0 0 []))
    (fun t => t.ovr && decide (t.lastCmd = 8)) = true := by decide
/-- V-CMD-5: completion with IRQ_EN set. -/
theorem test_completion_irq :
    nextIs (step { ent .modinv 6 9 0 0 0 [] with irqEn := true })
      (fun t => t.irq && decide (t.statusWord = 0x6)) = true := by decide
/-- V-CMD-6. -/
theorem test_acknowledge :
    nextIs (hostAccess ⟨.w64, 0x10, .write 0x2⟩
        { State.reset with irqEn := true, irq := true, done := true, errcode := some .noInverseExists })
      (fun t => !t.irq && decide (t.statusWord = 0x4)) = true := by decide
/-- V-CMD-8. -/
theorem test_ctrl_all_ones : nextIs (hostAccess ⟨.w64, 0x08, .write 0xFFFFFFFFFFFFFFFF⟩ State.reset)
    (fun t => decide (t.ctrlWord = 3) && decide (t.statusWord = 0x10)) = true := by decide
/-- V-CMD-11. -/
theorem test_bus_error_width (s : State) :
    hostAccess ⟨.w32, 0x08, .read⟩ s = .fault (.busError (Config.base + 0x08)) := rfl
/-- V-CMD-11. -/
theorem test_bus_error_alignment (s : State) :
    hostAccess ⟨.w64, 0x0C, .read⟩ s = .fault (.busError (Config.base + 0x0C)) := rfl
/-- V-CMD-13. -/
theorem test_reset_while_busy :
    step { ent .findprime 20 1 0 0 0 [] with inputs := [.reset], irqEn := true, ovr := true } = .next State.reset := rfl
/-- P1's bus transactions (section 4), with one poll before completion. -/
theorem test_host_notation :
    lineMoves (.command .modpow [2, 6, 23] 1) =
      [.access ⟨.w64, 0x30, .write 2⟩, .access ⟨.w64, 0x38, .write 6⟩, .access ⟨.w64, 0x40, .write 23⟩,
        .access ⟨.w64, 0x20, .write 1⟩, .access ⟨.w64, 0x10, .read⟩, .complete, .access ⟨.w64, 0x10, .read⟩] := by
  decide

/-! ### Witnesses: the obligations' hypotheses can be met -/

theorem operandsFit_of {i : Instr} {s : State} (h : widthOk i.format s.lop = true) : OperandsFit i s :=
  (widthOk_iff i s).1 h

theorem not_operandsFit_of {i : Instr} {s : State} (h : widthOk i.format s.lop = false) : ¬ OperandsFit i s :=
  fun hf => by rw [(widthOk_iff i s).2 hf] at h; cases h

theorem seedOk_of {s : State} (h : seedBad s = false) : SeedOk s := (seedBad_eq_false_iff s).1 h

/-- IllegalWordsCompleteWithIllegalCommand: the boundaries of the OPCODE and of MBZ, and a state that writes one. -/
theorem witness_illegal_words :
    IllegalWord 0 ∧ IllegalWord 9 ∧ IllegalWord 0xFF ∧ IllegalWord 0x101 ∧ IllegalWord 0x8000000000000001 ∧
      ¬ IllegalWord 1 ∧ ¬ IllegalWord 8 := by
  simp only [IllegalWord]; decide

/-- IllegalWordsCompleteWithIllegalCommand and CmdWriteAcceptsOrIsDropped: an idle core and a write to CMD. -/
theorem witness_cmd_write_idle : ∃ (s : State) (w : Word) (rest : List Event), IllegalWord w ∧ s.seq = .idle ∧
    s.inputs = .access ⟨.w64, 0x20, .write w⟩ :: .complete :: rest :=
  ⟨{ State.reset with inputs := [.access ⟨.w64, 0x20, .write 9⟩, .complete] }, 9, [], by simp only [IllegalWord]; decide,
    rfl, rfl⟩

/-- CmdWriteAcceptsOrIsDropped: a busy core. -/
theorem witness_cmd_write_busy : ∃ (s : State) (w : Word) (rest : List Event), s.seq = .busy ∧
    s.inputs = .access ⟨.w64, 0x20, .write w⟩ :: rest :=
  ⟨{ ent .modpow 2 6 23 0 0 [] with inputs := [.access ⟨.w64, 0x20, .write 1⟩] }, 1, [], rfl, rfl⟩

/-- StepRunsTheNextMove: a running command with and without a listed move, an idle core, an access. -/
theorem witness_step_running : (ent .decrypt 8 15 23 6 0 []).seq = .busy ∧
    decode (ent .decrypt 8 15 23 6 0 []).lastCmd = .ok .decrypt ∧ (ent .decrypt 8 15 23 6 0 []).inputs = [] ∧
    ({ ent .decrypt 8 15 23 6 0 [] with inputs := [.complete] } : State).inputs = .complete :: [] := by decide

theorem witness_step_idle : State.reset.seq = .idle ∧ State.reset.inputs = [] ∧
    ({ State.reset with inputs := [.complete] } : State).inputs = .complete :: [] ∧
    ({ State.reset with inputs := [.access ⟨.w64, 0x78, .read⟩] } : State).inputs =
      .access ⟨.w64, 0x78, .read⟩ :: [] := by decide

theorem witness_step_other_moves : ({ det .encrypt 10 23 2 18 0 1 with inputs := [.latchR] } : State).inputs = .latchR :: [] ∧
    nextIs (step { det .encrypt 10 23 2 18 0 1 with inputs := [.latchR] }) (fun t => decide (t.lR = 7)) = true ∧
    ({ det .encrypt 10 23 2 18 0 1 with inputs := [.reset] } : State).inputs = .reset :: [] := by decide

/-- PrngStateAccess: idle and busy. -/
theorem witness_prng_access : State.reset.seq = .idle ∧ (det .mrtest 9 1 0 0 0 1).seq = .busy := by decide

/-- BusErrorsExactly: the last offset, a misaligned one, a narrow access, and the last register. -/
theorem witness_bus_errors :
    ((127 < 128) ∧ ¬ ((Access.mk .w64 127 .read).width = .w64 ∧ (Access.mk .w64 127 .read).off % 8 = 0)) ∧
    ((0 < 128) ∧ ¬ ((Access.mk .w8 0 .read).width = .w64 ∧ (Access.mk .w8 0 .read).off % 8 = 0)) ∧
    ((120 < 128) ∧ (Access.mk .w64 120 (.write 0)).width = .w64 ∧ (Access.mk .w64 120 (.write 0)).off % 8 = 0) := by
  decide

/-- ResetInputAbandonsTheCommand: a running FINDPRIME. -/
theorem witness_reset_input : ∃ (s : State) (rest : List Event), s.seq = .busy ∧ s.inputs = .reset :: rest :=
  ⟨{ ent .findprime 20 1 0 0 0 [] with inputs := [.reset] }, [], rfl, rfl⟩

/-- The state of ENCRYPT 10, 23, 2, 18 with r = 3 in L_R before completion. -/
def latched : State := { ent .encrypt 10 23 2 18 0 [] with lR := 3 }

/-- EveryStepKeepsTheInvariant: a state that meets the invariant with r in L_R. -/
theorem witness_invariant : latched.Inv where
  irqLevel := by decide
  doneIdle := by decide
  busyNoError := by decide
  errorZero := by decide
  resultsFit := by decide
  ephemeralIdle := by decide
  ephemeralRange := fun _ => ⟨.inl ⟨by decide, by decide⟩, by decide, by decide⟩

/-- EveryStepKeepsTheInvariant, CompletionIsOneAtomicStep, ResultsChangeOnlyAtCompletion, EphemeralIsNeverShown: it goes on
to a next state, and a command that fails does too. -/
theorem witness_completion : (∃ t, step latched = .next t ∧ decide (t.res0 = 8) = true) ∧
    (∃ t, exec .encrypt latched = .next t ∧ decide (t.res1 = 15) = true) ∧
    (∃ t, exec .modinv (ent .modinv 6 9 0 0 0 []) = .next t ∧ decide (t.errcode = some .noInverseExists) = true) :=
  ⟨exists_next (by decide), exists_next (by decide), exists_next (by decide)⟩

/-- SequencerChangesInTwoWaysOnly: acceptance, completion and reset. -/
theorem witness_sequencer :
    (∃ t, step { State.reset with inputs := [.access ⟨.w64, 0x20, .write 1⟩] } = .next t ∧
      decide (t.seq = .busy) = true) ∧
    (∃ t, step latched = .next t ∧ decide (t.seq = .idle) = true) ∧
    (∃ t, step { latched with inputs := [.reset] } = .next t ∧ decide (t.seq = .idle) = true) :=
  ⟨exists_next (by decide), exists_next (by decide), exists_next (by decide)⟩

/-- ErrorCodesOfEachCommand: an illegal word that runs. -/
theorem witness_illegal_runs : IllegalWord ({ latched with lastCmd := 0 } : State).lastCmd ∧
    ∃ t, runCommand { latched with lastCmd := 0 } = .next t ∧ decide (t.errcode = some .illegalCommand) = true :=
  ⟨by simp only [IllegalWord]; decide, exists_next (by decide)⟩

/-- OverrunIsSticky: OVR is set by a dropped write to CMD and to PRNG_STATE, and cleared. -/
theorem witness_overrun :
    (latched.ovr = false ∧
      ∃ t, step { latched with inputs := [.access ⟨.w64, 0x20, .write 1⟩] } = .next t ∧ t.ovr = true) ∧
    (∃ t, step { latched with inputs := [.access ⟨.w64, 0x28, .write 1⟩] } = .next t ∧ t.ovr = true) ∧
    (∃ t, step { latched with ovr := true, inputs := [.access ⟨.w64, 0x10, .write 0x8⟩] } = .next t ∧
      (!t.ovr) = true) ∧
    (∃ t, step { latched with ovr := true, inputs := [.reset] } = .next t ∧ (!t.ovr) = true) :=
  ⟨⟨rfl, exists_next (by decide)⟩, exists_next (by decide), exists_next (by decide), exists_next (by decide)⟩

/-- DrawsStayInTheirRange: the smallest and a wide range, both modes, both ends of the range. -/
theorem witness_draws :
    draw .entropy 1 1 ⟨0, [some 1], 0⟩ = some (1, ⟨0, [], 0⟩) ∧
    draw .entropy 2 7 ⟨0, [some 2], 0⟩ = some (2, ⟨0, [], 0⟩) ∧
    draw .entropy 2 7 ⟨0, [some 7], 0⟩ = some (7, ⟨0, [], 0⟩) ∧
    draw .deterministic 2 7 ⟨1, [], 0⟩ = some (5, ⟨0x40822041, [], 0⟩) := by decide

/-- PrngStepIsAnInjectiveXorshift: its hypothesis is an equality of two steps. -/
theorem witness_prng_step : prngStep 5 = prngStep 5 := rfl

/-- RandomStateFrame: a command of each kind that goes on to a next state. -/
theorem witness_random_state :
    (latched.lMode = .entropy ∧ ∃ t, exec .encrypt latched = .next t ∧ t.done = true) ∧
    ((det .mrtest 9 1 0 0 0 1).lMode = .deterministic ∧
      ∃ t, exec .mrtest (det .mrtest 9 1 0 0 0 1) = .next t ∧ t.done = true) ∧
    (∃ t, exec .modpow (ent .modpow 2 6 23 0 0 []) = .next t ∧ t.done = true) :=
  ⟨⟨rfl, exists_next (by decide)⟩, ⟨rfl, exists_next (by decide)⟩, exists_next (by decide)⟩

/-- RandomStateFrame, deterministic mode: the draws of R42 and R53 where an ENCRYPT draws, where it has its r already and
where a check fails; a search that finds (V-FP-1), one that fails after its one candidate (V-FP-2's first, two draws), and
one that a check stops. -/
theorem witness_draw_count :
    nextIs (exec .encrypt (det .encrypt 10 23 2 18 0 1))
      (fun t => decide (t.errcode = none) && decide (t.rng.prngState = 0x40822041)) = true ∧
    nextIs (exec .encrypt { det .encrypt 10 23 2 18 0 1 with lR := 3 })
      (fun t => decide (t.errcode = none) && decide (t.rng.prngState = 1)) = true ∧
    nextIs (exec .encrypt (det .encrypt 23 23 2 18 0 1))
      (fun t => decide (t.errcode = some .blockTooLarge) && decide (t.rng.prngState = 1)) = true ∧
    nextIs (exec .findprime (det .findprime 20 1000 0 0 0 1))
      (fun t => decide (t.errcode = none) && decide (t.res2 = 1) &&
        decide (t.rng.prngState = 0xF231B2A1C85AA4F0)) = true ∧
    nextIs (exec .findprime (det .findprime 20 1 0 0 0 0x0123456789ABCDEF))
      (fun t => decide (t.errcode = some .generationFailed) &&
        decide (t.rng.prngState = prngStep (prngStep 0x0123456789ABCDEF))) = true ∧
    nextIs (exec .findprime (det .findprime 19 1 0 0 0 1))
      (fun t => decide (t.errcode = some .invalidArgument) && decide (t.rng.prngState = 1)) = true := by
  decide +kernel

/-- ZeroSeedIsRejected. -/
theorem witness_zero_seed : (det .encrypt 10 23 2 18 0 0).lMode = .deterministic ∧
    (det .encrypt 10 23 2 18 0 0).rng.prngState = 0 := by decide

/-- ModpowResult: the smallest modulus, all-ones operands; a wide operand, and n = 1. -/
theorem witness_modpow :
    (OperandsFit .modpow (ent .modpow 0 0 2 0 0 []) ∧ 2 ≤ (ent .modpow 0 0 2 0 0 []).lop.c.toNat) ∧
    (OperandsFit .modpow (ent .modpow 8589934591 8589934591 8589934591 0 0 []) ∧
      2 ≤ (ent .modpow 8589934591 8589934591 8589934591 0 0 []).lop.c.toNat) ∧
    ¬ OperandsFit .modpow (ent .modpow 8589934592 1 7 0 0 []) ∧ (ent .modpow 2 6 1 0 0 []).lop.c.toNat < 2 :=
  ⟨⟨operandsFit_of (by decide), by decide⟩, ⟨operandsFit_of (by decide), by decide⟩, not_operandsFit_of (by decide),
    by decide⟩

/-- ModinvResult: an inverse exists (the smallest n), none exists, a wide operand, n = 1. -/
theorem witness_modinv :
    (OperandsFit .modinv (ent .modinv 1 2 0 0 0 []) ∧ 2 ≤ (ent .modinv 1 2 0 0 0 []).lop.b.toNat ∧
      Nat.gcd ((ent .modinv 1 2 0 0 0 []).lop.a.toNat % (ent .modinv 1 2 0 0 0 []).lop.b.toNat)
        (ent .modinv 1 2 0 0 0 []).lop.b.toNat = 1) ∧
    (OperandsFit .modinv (ent .modinv 0 23 0 0 0 []) ∧ 2 ≤ (ent .modinv 0 23 0 0 0 []).lop.b.toNat ∧
      Nat.gcd ((ent .modinv 0 23 0 0 0 []).lop.a.toNat % (ent .modinv 0 23 0 0 0 []).lop.b.toNat)
        (ent .modinv 0 23 0 0 0 []).lop.b.toNat ≠ 1) ∧
    ¬ OperandsFit .modinv (ent .modinv 8589934592 7 0 0 0 []) ∧ (ent .modinv 5 1 0 0 0 []).lop.b.toNat < 2 :=
  ⟨⟨operandsFit_of (by decide), by decide, by decide⟩, ⟨operandsFit_of (by decide), by decide, by decide⟩,
    not_operandsFit_of (by decide), by decide⟩

/-- MrroundResult: the smallest n with its largest base passes, base 2 is a witness for 9, and each illegal operand. -/
theorem witness_mrround :
    (OperandsFit .mrround (ent .mrround 5 3 0 0 0 []) ∧ 5 ≤ 5 ∧ 5 % 2 = 1 ∧ 2 ≤ 3 ∧ 3 ≤ 5 - 2 ∧ StrongPass 5 3) ∧
    (OperandsFit .mrround (ent .mrround 9 2 0 0 0 []) ∧ 5 ≤ 9 ∧ 9 % 2 = 1 ∧ 2 ≤ 2 ∧ 2 ≤ 9 - 2 ∧
      ¬ StrongPass 9 2) ∧
    ¬ OperandsFit .mrround (ent .mrround 8589934593 2 0 0 0 []) ∧
    (ent .mrround 3 2 0 0 0 []).lop.a.toNat < 5 ∧ (ent .mrround 8 3 0 0 0 []).lop.a.toNat % 2 = 0 ∧
    (ent .mrround 9 1 0 0 0 []).lop.b.toNat < 2 ∧
    (ent .mrround 9 8 0 0 0 []).lop.a.toNat - 2 < (ent .mrround 9 8 0 0 0 []).lop.b.toNat :=
  ⟨⟨operandsFit_of (by decide), by decide, by decide, by decide, by decide,
      (mrRound_iff 5 3 (by decide) (by decide) (by decide)).1 (by decide)⟩,
    ⟨operandsFit_of (by decide), by decide, by decide, by decide, by decide, fun h => absurd
      ((mrRound_iff 9 2 (by decide) (by decide) (by decide)).2 h) (by decide)⟩,
    not_operandsFit_of (by decide), by decide, by decide, by decide, by decide⟩

/-- MrtestResult: the premises of the error cases. -/
theorem witness_mrtest_errors :
    ¬ OperandsFit .mrtest (ent .mrtest 8589934593 1 0 0 0 []) ∧ (ent .mrtest 9 0 0 0 0 []).lop.b.toNat < 1 ∧
    255 < (ent .mrtest 9 256 0 0 0 []).lop.b.toNat ∧ ¬ SeedOk (det .mrtest 2 1 0 0 0 0) :=
  ⟨not_operandsFit_of (by decide), by decide, by decide, fun h => h rfl rfl⟩

/-- MrtestResult: legal operands with k at both ends, and the trivial n. -/
theorem witness_mrtest_legal :
    (OperandsFit .mrtest (ent .mrtest 1 1 0 0 0 []) ∧ SeedOk (ent .mrtest 1 1 0 0 0 []) ∧
      (ent .mrtest 1 1 0 0 0 []).lop.a.toNat < 2) ∧
    (OperandsFit .mrtest (det .mrtest 3 255 0 0 0 1) ∧ SeedOk (det .mrtest 3 255 0 0 0 1) ∧
      1 ≤ (det .mrtest 3 255 0 0 0 1).lop.b.toNat ∧ (det .mrtest 3 255 0 0 0 1).lop.b.toNat ≤ 255 ∧
      (det .mrtest 3 255 0 0 0 1).lop.a.toNat = 3) ∧
    (OperandsFit .mrtest (ent .mrtest 4 1 0 0 0 []) ∧ SeedOk (ent .mrtest 4 1 0 0 0 []) ∧
      4 ≤ (ent .mrtest 4 1 0 0 0 []).lop.a.toNat ∧ (ent .mrtest 4 1 0 0 0 []).lop.a.toNat % 2 = 0) :=
  ⟨⟨operandsFit_of (by decide), seedOk_of (by decide), by decide⟩,
    ⟨operandsFit_of (by decide), seedOk_of (by decide), by decide, by decide, by decide⟩,
    ⟨operandsFit_of (by decide), seedOk_of (by decide), by decide, by decide⟩⟩

/-- MrtestResult: all k bases pass (V-MR-11), and a witness after one that passes (V-MR-9's bases 50 and 2). -/
theorem witness_mrtest_rounds :
    (∃ g, Draws .entropy 2 559 ⟨0, [some 50, some 101], 0⟩ [50, 101] g ∧ ∀ b ∈ [50, 101], StrongPass 561 b) ∧
    (∃ g, Draws .entropy 2 559 ⟨0, [some 50, some 2], 0⟩ ([50] ++ [2]) g ∧ (∀ b ∈ [50], StrongPass 561 b) ∧
      ¬ StrongPass 561 2) ∧
    (OperandsFit .mrtest (ent .mrtest 561 2 0 0 0 [some 50, some 101]) ∧
      (ent .mrtest 561 2 0 0 0 [some 50, some 101]).rng = ⟨0, [some 50, some 101], 0⟩ ∧
      (ent .mrtest 561 2 0 0 0 [some 50, some 101]).lop.a.toNat - 2 = 559 ∧
      [50, 101].length = (ent .mrtest 561 2 0 0 0 [some 50, some 101]).lop.b.toNat) ∧
    (OperandsFit .mrtest (ent .mrtest 561 2 0 0 0 [some 50, some 2]) ∧
      (ent .mrtest 561 2 0 0 0 [some 50, some 2]).rng = ⟨0, [some 50, some 2], 0⟩ ∧
      [50].length < (ent .mrtest 561 2 0 0 0 [some 50, some 2]).lop.b.toNat) := by
  have h50 : StrongPass 561 50 := (mrRound_iff 561 50 (by decide) (by decide) (by decide)).1 (by decide)
  have h101 : StrongPass 561 101 := (mrRound_iff 561 101 (by decide) (by decide) (by decide)).1 (by decide)
  have h2 : ¬ StrongPass 561 2 := fun h =>
    absurd ((mrRound_iff 561 2 (by decide) (by decide) (by decide)).2 h) (by decide)
  refine ⟨⟨_, .cons (g1 := ⟨0, [some 101], 0⟩) (by decide) (.cons (g1 := ⟨0, [], 0⟩) (by decide) (.nil _)), ?_⟩,
    ⟨_, .cons (g1 := ⟨0, [some 2], 0⟩) (by decide) (.cons (g1 := ⟨0, [], 0⟩) (by decide) (.nil _)), ?_, h2⟩,
    ⟨operandsFit_of (by decide), by decide, by decide, by decide⟩, operandsFit_of (by decide), by decide, by decide⟩
  · simp [h50, h101]
  · simp [h50]

/-- MrtestGivesAVerdict. -/
theorem witness_mrtest_verdict : OperandsFit .mrtest (ent .mrtest 561 2 0 0 0 []) ∧
    1 ≤ (ent .mrtest 561 2 0 0 0 []).lop.b.toNat ∧ (ent .mrtest 561 2 0 0 0 []).lop.b.toNat ≤ 255 ∧
    SeedOk (ent .mrtest 561 2 0 0 0 []) ∧ AlwaysAnswered (ent .mrtest 561 2 0 0 0 []) :=
  ⟨operandsFit_of (by decide), by decide, by decide, seedOk_of (by decide), by unfold AlwaysAnswered; decide⟩

/-- PrimesAreNeverDeclaredComposite: the smallest prime of a round, and a prime of an MRTEST that completes. -/
theorem witness_primes :
    (OperandsFit .mrround (ent .mrround 5 3 0 0 0 []) ∧ (ent .mrround 5 3 0 0 0 []).lop.a.toNat.Prime ∧
      5 ≤ (ent .mrround 5 3 0 0 0 []).lop.a.toNat ∧ 2 ≤ (ent .mrround 5 3 0 0 0 []).lop.b.toNat ∧
      (ent .mrround 5 3 0 0 0 []).lop.b.toNat ≤ (ent .mrround 5 3 0 0 0 []).lop.a.toNat - 2) ∧
    (det .mrtest 23 3 0 0 0 1).lop.a.toNat.Prime ∧
      ∃ t, exec .mrtest (det .mrtest 23 3 0 0 0 1) = .next t ∧ decide (t.errcode = none) = true :=
  ⟨⟨operandsFit_of (by decide), show Nat.Prime 5 by norm_num, by decide, by decide, by decide⟩,
    show Nat.Prime 23 by norm_num, exists_next (by decide)⟩

/-- 4294967297 = 641 · 6700417, the smallest candidate, fails the round on base 3 (R161, R121). -/
theorem discarded_smallest : CandidateDiscarded .entropy 20 ⟨0, [some 0, some 3], 0⟩ ⟨0, [], 0⟩ :=
  ⟨0, ⟨0, [some 3], 0⟩, by decide, .inl ⟨[], 3, .cons (g1 := ⟨0, [], 0⟩) (by decide) (.nil _), by decide, by simp,
    fun h => absurd ((mrRound_iff _ 3 (by decide) (by decide) (by decide)).2 h) (by decide)⟩⟩

/-- The prime of V-FP-9. -/
theorem found_prime : PrimeWithGeneratorTwo 6459506819 :=
  (generatorOk_iff_prime 6459506819 (by decide) (by decide)).1 (by decide +kernel)

/-- Draws that the list answers one by one. -/
theorem draws_listed (lo hi : Nat) (x : Word) (k : Nat) (vs : List Nat) (h : ∀ v ∈ vs, lo ≤ v ∧ v ≤ hi) :
    Draws .entropy lo hi ⟨x, vs.map some, k⟩ vs ⟨x, [], k⟩ := by
  induction vs with
  | nil => exact .nil _
  | cons v vs ih =>
    refine .cons (g1 := ⟨x, vs.map some, k⟩) ?_ (ih fun w hw => h w (by simp [hw]))
    simp [draw, entropyAnswer, intoRange, h v (by simp)]

/-- FindprimeReturnsTheFirst: the second of two candidates is found (V-FP-9's, after the smallest candidate). -/
theorem witness_findprime_found : ∃ (s : State) (g1 g2 : Rng) (p : Nat), OperandsFit .findprime s ∧
    20 ≤ s.lop.a.toNat ∧ s.lop.a.toNat ≤ 255 ∧ 1 ≤ s.lop.b.toNat ∧ SeedOk s ∧ 1 < s.lop.b.toNat ∧
    Discarded s.lMode s.lop.a.toNat 1 s.rng g1 ∧ CandidateFound s.lMode s.lop.a.toNat g1 p g2 := by
  refine ⟨ent .findprime 20 2 0 0 0 ([some 0, some 3, some 1082269761] ++ (List.replicate 20 77).map some),
    ⟨0, some 1082269761 :: (List.replicate 20 77).map some, 0⟩, ⟨0, [], 0⟩, 6459506819, operandsFit_of (by decide),
    by decide, by decide, by decide, seedOk_of (by decide), by decide, ?_, ?_⟩
  · exact .succ (.zero _) ⟨0, ⟨0, some 3 :: some 1082269761 :: (List.replicate 20 77).map some, 0⟩, by decide,
      .inl ⟨[], 3, .cons (g1 := ⟨0, some 1082269761 :: (List.replicate 20 77).map some, 0⟩) (by decide) (.nil _),
        by decide, by simp, fun h => absurd ((mrRound_iff _ 3 (by decide) (by decide) (by decide)).2 h) (by decide)⟩⟩
  · exact ⟨1082269761, ⟨0, (List.replicate 20 77).map some, 0⟩, List.replicate 20 77, by decide, by decide,
      draws_listed _ _ _ _ _ (by decide), by decide, found_prime⟩

/-- FindprimeReturnsTheFirst: all N candidates are discarded; and the premises of the error cases. -/
theorem witness_findprime_exhausted :
    (OperandsFit .findprime (ent .findprime 20 1 0 0 0 [some 0, some 3]) ∧
      Discarded .entropy 20 1 (ent .findprime 20 1 0 0 0 [some 0, some 3]).rng ⟨0, [], 0⟩) ∧
    ¬ OperandsFit .findprime (ent .findprime 20 8589934592 0 0 0 []) ∧
    (det .findprime 19 1000 0 0 0 1).lop.a.toNat < 20 ∧ 255 < (det .findprime 256 1000 0 0 0 1).lop.a.toNat ∧
    (det .findprime 20 0 0 0 0 1).lop.b.toNat < 1 ∧ ¬ SeedOk (det .findprime 20 1000 0 0 0 0) :=
  ⟨⟨operandsFit_of (by decide), .succ (.zero _) discarded_smallest⟩, not_operandsFit_of (by decide), by decide,
    by decide, by decide, fun h => h rfl rfl⟩

/-- FindprimeOutputIsPrimeWithGeneratorTwo: k at both ends. -/
theorem witness_findprime_output :
    (OperandsFit .findprime (det .findprime 20 1 0 0 0 1) ∧ SeedOk (det .findprime 20 1 0 0 0 1) ∧
      AlwaysAnswered (det .findprime 20 1 0 0 0 1) ∧ 20 ≤ (det .findprime 20 1 0 0 0 1).lop.a.toNat ∧
      1 ≤ (det .findprime 20 1 0 0 0 1).lop.b.toNat) ∧
    (OperandsFit .findprime (ent .findprime 255 8589934591 0 0 0 []) ∧
      (ent .findprime 255 8589934591 0 0 0 []).lop.a.toNat ≤ 255) :=
  ⟨⟨operandsFit_of (by decide), seedOk_of (by decide), by unfold AlwaysAnswered; decide, by decide, by decide⟩,
    operandsFit_of (by decide), by decide⟩

/-- EncryptResult: a draw to make (V-EG-1b) and each error case; EncryptUsesTheEphemeralItHolds: an r that is there. -/
theorem witness_encrypt :
    (OperandsFit .encrypt (ent .encrypt 10 23 2 18 0 [some 3]) ∧ SeedOk (ent .encrypt 10 23 2 18 0 [some 3]) ∧
      AlwaysAnswered (ent .encrypt 10 23 2 18 0 [some 3]) ∧ (ent .encrypt 10 23 2 18 0 [some 3]).lR = 0 ∧
      draw .entropy 1 21 (ent .encrypt 10 23 2 18 0 [some 3]).rng = some (3, ⟨0, [], 0⟩)) ∧
    (OperandsFit .encrypt latched ∧ SeedOk latched ∧ 3 ≤ latched.lop.b.toNat ∧
      latched.lop.a.toNat < latched.lop.b.toNat ∧ latched.lR ≠ 0) ∧
    ¬ OperandsFit .encrypt (ent .encrypt 10 23 2 8589934592 0 []) ∧ (ent .encrypt 1 2 1 1 0 []).lop.b.toNat < 3 ∧
    ¬ SeedOk (det .encrypt 10 23 2 18 0 0) ∧
    (OperandsFit .encrypt (det .encrypt 23 23 2 18 0 1) ∧ SeedOk (det .encrypt 23 23 2 18 0 1) ∧
      (det .encrypt 23 23 2 18 0 1).lop.b.toNat ≤ (det .encrypt 23 23 2 18 0 1).lop.a.toNat) :=
  ⟨⟨operandsFit_of (by decide), seedOk_of (by decide), by unfold AlwaysAnswered; decide, by decide, by decide⟩,
    ⟨operandsFit_of (by decide), seedOk_of (by decide), by decide, by decide, by decide⟩,
    not_operandsFit_of (by decide), by decide, fun h => h rfl rfl, ⟨operandsFit_of (by decide), seedOk_of (by decide), by decide⟩⟩

/-- EncryptRResult: the smallest p, r = p − 2, m = p, and each illegal operand. -/
theorem witness_encryptR :
    (OperandsFit .encryptR (ent .encryptR 2 3 2 2 1 []) ∧ 3 ≤ (ent .encryptR 2 3 2 2 1 []).lop.b.toNat ∧
      (ent .encryptR 2 3 2 2 1 []).lop.e.toNat ≤ (ent .encryptR 2 3 2 2 1 []).lop.b.toNat - 2 ∧
      (ent .encryptR 2 3 2 2 1 []).lop.a.toNat < (ent .encryptR 2 3 2 2 1 []).lop.b.toNat) ∧
    (OperandsFit .encryptR (ent .encryptR 23 23 2 18 21 []) ∧
      1 ≤ (ent .encryptR 23 23 2 18 21 []).lop.e.toNat ∧
      (ent .encryptR 23 23 2 18 21 []).lop.e.toNat ≤ (ent .encryptR 23 23 2 18 21 []).lop.b.toNat - 2 ∧
      (ent .encryptR 23 23 2 18 21 []).lop.b.toNat ≤ (ent .encryptR 23 23 2 18 21 []).lop.a.toNat) ∧
    ¬ OperandsFit .encryptR (ent .encryptR 8589934592 23 2 18 3 []) ∧
    (ent .encryptR 1 2 1 1 1 []).lop.b.toNat < 3 ∧ (ent .encryptR 10 23 2 18 0 []).lop.e.toNat < 1 ∧
    (ent .encryptR 10 23 2 18 22 []).lop.b.toNat - 2 < (ent .encryptR 10 23 2 18 22 []).lop.e.toNat :=
  ⟨⟨operandsFit_of (by decide), by decide, by decide, by decide⟩,
    ⟨operandsFit_of (by decide), by decide, by decide, by decide⟩, not_operandsFit_of (by decide), by decide,
    by decide, by decide⟩

/-- DecryptResult: an inverse exists (V-EG-2), none exists (V-EG-17), each invalid cipher block, and the other errors. -/
theorem witness_decrypt :
    (OperandsFit .decrypt (ent .decrypt 8 15 23 6 0 []) ∧ Nat.gcd (8 ^ 6 % 23) 23 = 1) ∧
    (OperandsFit .decrypt (ent .decrypt 6 1 9 1 0 []) ∧ Nat.gcd (6 ^ 1 % 9) 9 ≠ 1) ∧
    (ent .decrypt 0 5 23 6 0 []).lop.a.toNat = 0 ∧
    (ent .decrypt 23 5 23 6 0 []).lop.c.toNat ≤ (ent .decrypt 23 5 23 6 0 []).lop.a.toNat ∧
    (ent .decrypt 8 23 23 6 0 []).lop.c.toNat ≤ (ent .decrypt 8 23 23 6 0 []).lop.b.toNat ∧
    ¬ OperandsFit .decrypt (ent .decrypt 8 15 23 8589934592 0 []) ∧ (ent .decrypt 8 15 2 6 0 []).lop.c.toNat < 3 :=
  ⟨⟨operandsFit_of (by decide), by decide⟩, ⟨operandsFit_of (by decide), by decide⟩, by decide, by decide, by decide,
    not_operandsFit_of (by decide), by decide⟩

/-- EncryptionRoundTrip: the source's key (V-EG-1 to V-EG-4), with r given and with r drawn. -/
theorem witness_round_trip : Nat.Prime 23 ∧ 3 ≤ 23 ∧ 23 < 2 ^ 33 ∧ 2 % 23 ≠ 0 ∧ 18 = 2 ^ 6 % 23 ∧ 10 < 23 ∧
    ((ent .encryptR 10 23 2 18 3 []).lop.a.toNat = 10 ∧ (ent .encryptR 10 23 2 18 3 []).lop.b.toNat = 23 ∧
      (ent .encryptR 10 23 2 18 3 []).lop.c.toNat = 2 ∧ (ent .encryptR 10 23 2 18 3 []).lop.d.toNat = 18 ∧
      1 ≤ (ent .encryptR 10 23 2 18 3 []).lop.e.toNat ∧ (ent .encryptR 10 23 2 18 3 []).lop.e.toNat ≤ 23 - 2) ∧
    (SeedOk (det .encrypt 10 23 2 18 0 1) ∧ AlwaysAnswered (det .encrypt 10 23 2 18 0 1) ∧
      (det .encrypt 10 23 2 18 0 1).lR = 0) ∧
    ((ent .decrypt 8 15 23 6 0 []).lop.c.toNat = 23 ∧ (ent .decrypt 8 15 23 6 0 []).lop.d.toNat = 6 ∧
      (ent .decrypt 8 15 23 6 0 []).lop.a.toNat = 8 ∧ (ent .decrypt 8 15 23 6 0 []).lop.b.toNat = 15) :=
  ⟨by norm_num, by decide, by decide, by decide, by decide, by decide, by decide,
    ⟨seedOk_of (by decide), by unfold AlwaysAnswered; decide, by decide⟩, by decide⟩

/-- DifferentEphemeralsDifferentCiphers: p = 5, of which 2 is a primitive root, with r = 1 and r = 3. -/
theorem witness_different_ephemerals :
    (ent .encryptR 2 5 2 3 1 []).lop.b.toNat.Prime ∧
    orderOf ((2 : Nat) : ZMod 5) = 5 - 1 ∧
    (ent .encryptR 2 5 2 3 1 []).lop.c.toNat = 2 ∧
    (ent .encryptR 2 5 2 3 3 []).lop.e ≠ (ent .encryptR 2 5 2 3 1 []).lop.e ∧
    (∃ t, exec .encryptR (ent .encryptR 2 5 2 3 1 []) = .next t ∧ decide (t.errcode = none) = true) ∧
    (∃ t, exec .encryptR (ent .encryptR 2 5 2 3 3 []) = .next t ∧ decide (t.errcode = none) = true) :=
  ⟨show Nat.Prime 5 by norm_num,
    ((generatorOk_iff_prime 5 (by decide) (by decide)).1 (by decide)).2,
    by decide, by decide, exists_next (by decide), exists_next (by decide)⟩

/-- DifferentEphemeralsDifferentCiphers: two ENCRYPTs under that key that draw 1 and 3 = p − 2. -/
theorem witness_different_draws :
    (ent .encrypt 2 5 2 3 0 [some 1]).lR = 0 ∧ (ent .encrypt 2 5 2 3 0 [some 3]).lR = 0 ∧
    draw .entropy 1 (5 - 2) (ent .encrypt 2 5 2 3 0 [some 1]).rng = some (1, ⟨0, [], 0⟩) ∧
    draw .entropy 1 (5 - 2) (ent .encrypt 2 5 2 3 0 [some 3]).rng = some (3, ⟨0, [], 0⟩) ∧
    (∃ t, exec .encrypt (ent .encrypt 2 5 2 3 0 [some 1]) = .next t ∧ decide (t.errcode = none) = true) ∧
    (∃ t, exec .encrypt (ent .encrypt 2 5 2 3 0 [some 3]) = .next t ∧ decide (t.errcode = none) = true) :=
  ⟨by decide, by decide, by decide, by decide, exists_next (by decide), exists_next (by decide)⟩

/-- EveryCommandCompletes. -/
theorem witness_always_answered : AlwaysAnswered State.reset ∧ AlwaysAnswered (ent .mrtest 9 1 0 0 0 [some 2]) := by
  unfold AlwaysAnswered; decide

/-- OnlyAnUnansweredDrawStops: an ENCRYPT whose draw is never answered. -/
theorem witness_unanswered : exec .encrypt (ent .encrypt 10 23 2 18 0 [none]) = .fault .entropyNeverAnswers ∧
    OperandsFit .encrypt (ent .encrypt 10 23 2 18 0 [none]) ∧
    3 ≤ (ent .encrypt 10 23 2 18 0 [none]).lop.b.toNat ∧
    (ent .encrypt 10 23 2 18 0 [none]).lop.a.toNat < (ent .encrypt 10 23 2 18 0 [none]).lop.b.toNat ∧
    (ent .encrypt 10 23 2 18 0 [none]).lR = 0 ∧ (ent .encrypt 10 23 2 18 0 [none]).lMode = .entropy ∧
    (ent .encrypt 10 23 2 18 0 [none]).rng.answers = none :: [] :=
  ⟨rfl, operandsFit_of (by decide), by decide, by decide, by decide, by decide, by decide⟩

/-- OnlyAnUnansweredDrawStops: an MRTEST whose second draw, of the last round, is never answered. -/
theorem witness_unanswered_mrtest : ∃ (s : State) (bases : List Nat) (g : Rng), OperandsFit .mrtest s ∧
    1 ≤ s.lop.b.toNat ∧ s.lop.b.toNat ≤ 255 ∧ 5 ≤ s.lop.a.toNat ∧ s.lop.a.toNat % 2 = 1 ∧ s.lMode = .entropy ∧
    Draws .entropy 2 (s.lop.a.toNat - 2) s.rng bases g ∧ bases.length + 1 = s.lop.b.toNat ∧
    (∀ b ∈ bases, StrongPass s.lop.a.toNat b) ∧ g.answers = none :: [] := by
  refine ⟨ent .mrtest 561 2 0 0 0 [some 50, none], [50], ⟨0, [none], 0⟩, operandsFit_of (by decide), by decide, by decide,
    by decide, by decide, rfl, .cons (g1 := ⟨0, [none], 0⟩) (by decide) (.nil _), by decide, ?_, rfl⟩
  have h50 : StrongPass 561 50 := (mrRound_iff 561 50 (by decide) (by decide) (by decide)).1 (by decide)
  simpa [ent] using h50

/-- OnlyAnUnansweredDrawStops: a FINDPRIME whose first draw is never answered, and one whose last candidate's is not. -/
theorem witness_unanswered_candidate :
    (OperandsFit .findprime (ent .findprime 20 1 0 0 0 [none]) ∧
      Discarded .entropy 20 0 (ent .findprime 20 1 0 0 0 [none]).rng ⟨0, [none], 0⟩) ∧
    (OperandsFit .findprime (ent .findprime 255 2 0 0 0 [some 0, some 3, none]) ∧
      1 < (ent .findprime 255 2 0 0 0 [some 0, some 3, none]).lop.b.toNat ∧
      Discarded .entropy 255 1 (ent .findprime 255 2 0 0 0 [some 0, some 3, none]).rng ⟨0, [none], 0⟩) :=
  ⟨⟨operandsFit_of (by decide), .zero _⟩, operandsFit_of (by decide), by decide,
    .succ (.zero _) ⟨0, ⟨0, [some 3, none], 0⟩, by decide, .inl ⟨[], 3,
      .cons (g1 := ⟨0, [none], 0⟩) (by decide) (.nil _), by decide, by simp,
      fun h => absurd ((mrRound_iff _ 3 (by decide) (by decide) (by decide)).2 h) (by decide)⟩⟩⟩

/-- OnlyAnUnansweredDrawStops: a FINDPRIME whose draw for its candidate's second round is never answered. -/
theorem witness_unanswered_round : ∃ (s : State) (u : Nat) (g1 g2 : Rng) (bases : List Nat), OperandsFit .findprime s ∧
    20 ≤ s.lop.a.toNat ∧ s.lop.a.toNat ≤ 255 ∧ s.lMode = .entropy ∧ 0 < s.lop.b.toNat ∧
    Discarded .entropy s.lop.a.toNat 0 s.rng s.rng ∧ draw .entropy 0 (2 ^ 31 - 1) s.rng = some (u, g1) ∧
    Draws .entropy 2 (2 ^ 32 + 2 * u + 1 - 2) g1 bases g2 ∧ bases.length < s.lop.a.toNat ∧
    (∀ b ∈ bases, StrongPass (2 ^ 32 + 2 * u + 1) b) ∧ g2.answers = none :: [] := by
  refine ⟨ent .findprime 20 1 0 0 0 [some 1082269761, some 77, none], 1082269761, ⟨0, [some 77, none], 0⟩, ⟨0, [none], 0⟩,
    [77], operandsFit_of (by decide), by decide, by decide, rfl, by decide, .zero _, by decide,
    .cons (g1 := ⟨0, [none], 0⟩) (by decide) (.nil _), by decide, ?_, rfl⟩
  simpa using strongPass_of_prime 6459506819 77 found_prime.1 (by decide) (by decide) (by decide)

/-- RunningCommandCompletesInBoundedSteps: moves of every safe kind before the completion. -/
theorem witness_bounded : ∃ s : State, s.seq = .busy ∧ AlwaysAnswered s ∧ s.inputs.length = 3 ∧
    ∀ e ∈ s.inputs, safeMove e = true ∧ e ≠ .reset :=
  ⟨{ ent .encrypt 10 23 2 18 0 [some 3] with
      inputs := [.access ⟨.w64, 0x20, .write 1⟩, .latchR, .access ⟨.w64, 0x10, .read⟩] },
    by decide, by unfold AlwaysAnswered; decide, by decide, by decide⟩

/-- UnreadOperandsHaveNoEffect: V-MP-15's operand E, and operand C of a two-operand command. -/
theorem witness_unread : Operand.e ∉ formatOperands Instr.modpow.format ∧ Operand.c ∉ formatOperands Instr.modinv.format ∧
    ∃ t, exec .modpow (ent .modpow 2 6 23 0 0 []) = .next t ∧ decide (t.res0 = 18) = true :=
  ⟨by decide, by decide, exists_next (by decide)⟩

/-- ResultsDependOnLatchesAndDrawsOnly: two different states that agree on what the command reads. -/
theorem witness_dependence : ∃ s u : State, s ≠ u ∧ s.lop = u.lop ∧ s.lMode = u.lMode ∧ s.rng = u.rng ∧ s.lR = u.lR ∧
    ∃ t, exec .modpow s = .next t ∧ t.done = true :=
  ⟨ent .modpow 2 6 23 0 0 [], { ent .modpow 2 6 23 0 0 [] with ovr := true, rngMode := .deterministic }, by decide, rfl,
    rfl, rfl, rfl, exists_next (by decide)⟩

/-- EarlyEphemeralChangesNoResult: an ENCRYPT that gets its r early. -/
theorem witness_early : (det .encrypt 10 23 2 18 0 1).seq = .busy ∧
    decode (det .encrypt 10 23 2 18 0 1).lastCmd = .ok .encrypt ∧ (det .encrypt 10 23 2 18 0 1).lR = 0 ∧
    (latchEphemeral (det .encrypt 10 23 2 18 0 1)).lR = 7 := by decide

/-- HostNotationLatchesItsArguments. -/
theorem witness_host_notation : [2, 6, 23].length = (formatOperands Instr.modpow.format).length ∧
    State.reset.seq = .idle ∧
    ({ State.reset with inputs := lineMoves (.command .modpow [2, 6, 23] 0) } : State).inputs =
      lineMoves (.command .modpow [2, 6, 23] 0) ++ [] := by decide

end Sys2Proof.Tests
end

section
/-! PROOFS. The step, one equation per move, and what the sequencer's turn is. -/

namespace Sys2Proof.Machine

/-- When no move is left it is the sequencer's turn (log entry 1). -/
theorem step_of_no_move {s : State} (hi : s.inputs = []) : step s = sequencerTurn s := by
  simp [step, hi]

/-- The first of the listed moves is taken, on the state with that move removed (R14). -/
theorem step_of_move {s : State} {e : Event} {rest : List Event} (hi : s.inputs = e :: rest) :
    step s = move e { s with inputs := rest } := by
  simp [step, hi]

/-- An idle core waits (R220). -/
theorem sequencerTurn_of_idle {s : State} (hs : s.seq = .idle) : sequencerTurn s = .next s := by
  simp [sequencerTurn, hs]

/-- A running legal command completes with its meaning (R101). -/
theorem sequencerTurn_of_running {s : State} {i : Instr} (hs : s.seq = .busy) (hd : decode s.lastCmd = .ok i) :
    sequencerTurn s = exec i s := by
  simp [sequencerTurn, runCommand, hs, hd]

/-- Settles O5: the step's equation for each kind of move; SEQ and LASTCMD do not depend on the list of moves, so the
sequencer's turn is the same on the state with its completion removed. -/
theorem stepRunsTheNextMove : Obligations.StepRunsTheNextMove := by
  unfold Obligations.StepRunsTheNextMove
  refine ⟨fun s i hs hd => ⟨fun hi => ?_, fun rest hi => ?_⟩, fun s hs => ⟨fun hi => ?_, fun rest hi => ?_⟩,
    fun s a rest hi => step_of_move hi, fun s rest hi => step_of_move hi, fun s rest hi => step_of_move hi⟩
  · exact (step_of_no_move hi).trans (sequencerTurn_of_running hs hd)
  · exact (step_of_move hi).trans (sequencerTurn_of_running hs hd)
  · exact (step_of_no_move hi).trans (sequencerTurn_of_idle hs)
  · exact (step_of_move hi).trans (sequencerTurn_of_idle hs)

end Sys2Proof.Machine
end

section
/-! PROOFS. The rules of the state's operations: each slot's accesses, the bits of CTRL and STATUS, and what host writes
and the early step leave unchanged. -/

namespace Sys2Proof.Machine

/-! ### Host accesses -/

/-- A host access that goes on is a 64-bit read or write of one slot (R71, R72). -/
theorem hostAccess_next_slot {a : Access} {s t : State} (h : hostAccess a s = .next t) :
    ∃ r, (a = readOf r ∧ t = hostRead r s) ∨ ∃ v, a = writeOf r v ∧ t = hostWrite r v s := by
  obtain ⟨width, off, kind⟩ := a
  obtain ⟨rfl, r, rfl, ⟨rfl, ht⟩ | ⟨v, rfl, ht⟩⟩ := hostAccess_next h
  · exact ⟨r, .inl ⟨rfl, ht⟩⟩
  · exact ⟨r, .inr ⟨v, rfl, ht⟩⟩

/-- A write access names its slot: no two slots have one offset (R30). -/
theorem slot_of_writeOf_eq {r r' : Reg} {v v' : Word} (h : writeOf r v = writeOf r' v') : r = r' := by
  have hoff : regOffset r = regOffset r' := congrArg Access.off h
  exact Option.some.inj (by rw [← regAt_offset r, hoff, regAt_offset])

/-- A read of any slot but PRNG_STATE only records the value (R77). -/
theorem hostAccess_read_of_ne_prng {r : Reg} (hr : r ≠ .prngState) (s : State) :
    hostAccess ⟨.w64, regOffset r, .read⟩ s = .next { s with readLog := readReg s r :: s.readLog } := by
  simp [hostAccess_read, hostRead, readIsFree, hr]

@[simp] theorem writeCmd_of_idle {s : State} (w : Word) (hs : s.seq = .idle) : writeCmd w s = s.accepted w := by
  simp [writeCmd, hs, accept_eq]

@[simp] theorem writeCmd_of_busy {s : State} (w : Word) (hs : s.seq = .busy) : writeCmd w s = s.overrun := by
  simp [writeCmd, hs]

@[simp] theorem writePrng_of_idle {s : State} (v : Word) (hs : s.seq = .idle) :
    writePrng v s = { s with rng := { s.rng with prngState := v } } := by
  simp [writePrng, hs]

@[simp] theorem writePrng_of_busy {s : State} (v : Word) (hs : s.seq = .busy) : writePrng v s = s.overrun := by
  simp [writePrng, hs]

/-! ### What a host write leaves unchanged -/

theorem State.idle_or_busy (s : State) : s.seq = .idle ∨ s.seq = .busy := by
  cases s.seq <;> decide

/-- After a write to CMD a command runs: the accepted one, or the one that ran before (R38, R100). -/
theorem writeCmd_seq (w : Word) (s : State) : (writeCmd w s).seq = .busy := by
  cases hs : s.seq <;> simp [hs]

theorem writePrng_seq (v : Word) (s : State) : (writePrng v s).seq = s.seq := by
  cases hs : s.seq <;> simp [hs]

/-- Only a write to CMD changes SEQ (R44). -/
theorem hostWrite_seq {r : Reg} (hr : r ≠ .cmd) (v : Word) (s : State) : (hostWrite r v s).seq = s.seq := by
  cases r with
  | cmd => exact absurd rfl hr
  | prngState => exact writePrng_seq v s
  | _ => rfl

/-- No host write changes a result register (R40). -/
theorem hostWrite_results (r : Reg) (v : Word) (s : State) : (hostWrite r v s).res0 = s.res0 ∧
    (hostWrite r v s).res1 = s.res1 ∧ (hostWrite r v s).res2 = s.res2 := by
  cases r with
  | cmd => cases hs : s.seq <;> simp [hostWrite, hs]
  | prngState => cases hs : s.seq <;> simp [hostWrite, hs]
  | _ => exact ⟨rfl, rfl, rfl⟩

/-- A host write changes ERRCODE only by acceptance (R36, R100). -/
theorem hostWrite_errcode (r : Reg) (v : Word) (s : State) :
    (hostWrite r v s).errcode = s.errcode ∨ (r = .cmd ∧ s.seq = .idle) := by
  cases r with
  | cmd => cases hs : s.seq <;> simp [hostWrite, hs]
  | prngState => cases hs : s.seq <;> simp [hostWrite, hs]
  | _ => exact .inl rfl

/-! ### The sequencer's early step -/

/-- The early step changes L_R and the random-number state only (R46). -/
theorem latchEphemeral_frame (s : State) :
    latchEphemeral s = { s with rng := (latchEphemeral s).rng, lR := (latchEphemeral s).lR } := by
  obtain h | ⟨-, -, -, -, r, g, -, h⟩ | ⟨-, -, -, h⟩ := latchEphemeral_cases s <;> rw [h]

/-! ### The bits of CTRL and STATUS -/

@[simp] theorem State.writeStatus_busy (s : State) (v : Word) : (s.writeStatus v).busy = s.busy := rfl
@[simp] theorem State.writeStatus_err (s : State) (v : Word) : (s.writeStatus v).err = s.err := rfl
@[simp] theorem State.writeStatus_nonCrypto (s : State) (v : Word) : (s.writeStatus v).nonCrypto = s.nonCrypto := rfl

/-- The number with the given bits, the lowest first. -/
def numberOfBits (bits : List Bool) : Nat := bits.foldr Nat.bit 0

theorem testBit_numberOfBits : ∀ (bits : List Bool) (n : Nat), (numberOfBits bits).testBit n = bits.getD n false
  | [], n => by simp [numberOfBits]
  | b :: bits, 0 => by simp [numberOfBits]
  | b :: bits, n + 1 => by simpa [numberOfBits, Nat.testBit_bit_succ] using testBit_numberOfBits bits n

theorem getLsbD_numberOfBits {bits : List Bool} (h : bits.length ≤ 64) (n : Nat) :
    (BitVec.ofNat 64 (numberOfBits bits)).getLsbD n = bits.getD n false := by
  rw [BitVec.getLsbD_ofNat, testBit_numberOfBits]
  by_cases hn : n < 64
  · simp [hn]
  · simp [hn, List.getElem?_eq_none (by omega : bits.length ≤ n)]

theorem bitAt_eq (b : Bool) (i : Nat) : bitAt b i = b.toNat * 2 ^ i := by
  cases b <;> simp [bitAt]

/-- The bits of CTRL (R33). -/
theorem getLsbD_ctrlWord (s : State) (n : Nat) : s.ctrlWord.getLsbD n = [s.rngMode.bit, s.irqEn].getD n false := by
  rw [← getLsbD_numberOfBits (by simp)]
  simp only [State.ctrlWord, numberOfBits, bitAt_eq, List.foldr, Nat.bit_val]
  congr 2
  omega

/-- The bits of STATUS (R34). -/
theorem getLsbD_statusWord (s : State) (n : Nat) :
    s.statusWord.getLsbD n = [s.busy, s.done, s.err, s.ovr, s.nonCrypto].getD n false := by
  rw [← getLsbD_numberOfBits (by simp)]
  simp only [State.statusWord, numberOfBits, bitAt_eq, List.foldr, Nat.bit_val]
  congr 2
  omega

theorem RngMode.bit_eq_true_iff (m : RngMode) : m.bit = true ↔ m = .deterministic := by
  cases m <;> decide

theorem RngMode.ofBit_eq (b : Bool) : RngMode.ofBit b = if b then .deterministic else .entropy := by
  cases b <;> rfl

theorem RngMode.bit_ofBit (b : Bool) : (RngMode.ofBit b).bit = b := by
  cases b <;> rfl

end Sys2Proof.Machine
end

section
/-! PROOFS. The invariant of flags, interrupt, results and the ephemeral, kept by every move (R35, R36, R46, R130, R206,
R210). -/

namespace Sys2Proof.Machine

/-- The invariant does not speak of OVR, RNG_MODE, OPA to OPE and the model's own fields. -/
theorem State.Inv.frame {s : State} (h : s.Inv) (mode : RngMode) (ovr : Bool) (op : Operands) (busyReads : Nat)
    (readLog : List Word) (inputs : List Event) :
    ({ s with rngMode := mode, ovr := ovr, op := op, busyReads := busyReads, readLog := readLog,
              inputs := inputs } : State).Inv :=
  ⟨h.irqLevel, h.doneIdle, h.busyNoError, h.errorZero, h.resultsFit, h.ephemeralIdle, h.ephemeralRange⟩

/-- What the invariant asks of an idle core: the interrupt level, the results, and that no r is left. -/
theorem inv_of_idle {t : State} (hs : t.seq = .idle) (hR : t.lR = 0) (hirq : t.irq = (t.irqEn && t.done))
    (herr : t.errcode ≠ none → t.res0 = 0 ∧ t.res1 = 0 ∧ t.res2 = 0)
    (hfit : Fits t.res0 ∧ Fits t.res1 ∧ Fits t.res2) : t.Inv where
  irqLevel := hirq
  doneIdle := fun _ => hs
  busyNoError := fun hb => by rw [hs] at hb; cases hb
  errorZero := herr
  resultsFit := hfit
  ephemeralIdle := fun _ => hR
  ephemeralRange := fun h => absurd hR h

theorem fits_ofNat {r : Nat} (h : r < 2 ^ 33) : Fits (BitVec.ofNat 64 r) := by
  simp only [Fits, BitVec.toNat_ofNat]
  omega

theorem fits_zero : Fits 0 := fits_ofNat (by decide)

theorem reset_inv : State.reset.Inv :=
  inv_of_idle rfl rfl rfl (fun h => absurd rfl h) ⟨fits_zero, fits_zero, fits_zero⟩

theorem resetCore_inv (s : State) : (resetCore s).Inv :=
  inv_of_idle rfl rfl rfl (fun h => absurd rfl h) ⟨fits_zero, fits_zero, fits_zero⟩

theorem finished_inv (s : State) {r0 r1 r2 : Nat} (h0 : r0 < 2 ^ 33) (h1 : r1 < 2 ^ 33) (h2 : r2 < 2 ^ 33) :
    (s.finished r0 r1 r2).Inv :=
  inv_of_idle rfl rfl (by simp) (fun h => absurd rfl h) ⟨fits_ofNat h0, fits_ofNat h1, fits_ofNat h2⟩

theorem failed_inv (s : State) (e : ErrorKind) : (s.failed e).Inv :=
  inv_of_idle rfl rfl (by simp) (fun _ => ⟨rfl, rfl, rfl⟩) ⟨fits_zero, fits_zero, fits_zero⟩

/-- Completion establishes the invariant, whatever state it starts from (R205, R206). -/
theorem runCommand_inv {s t : State} (h : runCommand s = .next t) : t.Inv := by
  obtain ⟨r0, r1, r2, h0, h1, h2, ht⟩ | ⟨e, ht⟩ := runCommand_next h
  · rw [ht]; exact finished_inv _ h0 h1 h2
  · rw [ht]; exact failed_inv _ e

/-- Acceptance by an idle core: the new command has no error yet and no r (R46, R100). -/
theorem State.Inv.accepted {s : State} (h : s.Inv) (hs : s.seq = .idle) (w : Word) : (s.accepted w).Inv where
  irqLevel := by simp
  doneIdle := by simp
  busyNoError := fun _ => rfl
  errorZero := fun hn => absurd rfl hn
  resultsFit := h.resultsFit
  ephemeralIdle := by simp
  ephemeralRange := fun hn => absurd (h.ephemeralIdle hs) hn

theorem State.Inv.overrun {s : State} (h : s.Inv) : s.overrun.Inv := h.frame _ _ _ _ _ _

theorem State.Inv.writeCtrl {s : State} (h : s.Inv) (v : Word) : (s.writeCtrl v).Inv :=
  ⟨rfl, h.doneIdle, h.busyNoError, h.errorZero, h.resultsFit, h.ephemeralIdle, h.ephemeralRange⟩

theorem State.Inv.writeStatus {s : State} (h : s.Inv) (v : Word) : (s.writeStatus v).Inv :=
  ⟨rfl, fun hd => h.doneIdle (Bool.and_eq_true_iff.1 hd).1, h.busyNoError, h.errorZero, h.resultsFit,
    h.ephemeralIdle, h.ephemeralRange⟩

theorem State.Inv.writeCmd {s : State} (h : s.Inv) (w : Word) : (writeCmd w s).Inv := by
  cases hs : s.seq with
  | idle => rw [writeCmd_of_idle w hs]; exact h.accepted hs w
  | busy => rw [writeCmd_of_busy w hs]; exact h.overrun

/-- An idle core's PRNG_STATE is free to change: no r is held whose checks read it (R41, R46). -/
theorem State.Inv.writePrng {s : State} (h : s.Inv) (v : Word) : (writePrng v s).Inv := by
  cases hs : s.seq with
  | idle =>
    rw [writePrng_of_idle v hs]
    exact inv_of_idle hs (h.ephemeralIdle hs) h.irqLevel h.errorZero h.resultsFit
  | busy => rw [writePrng_of_busy v hs]; exact h.overrun

theorem State.Inv.hostWrite {s : State} (h : s.Inv) (r : Reg) (v : Word) : (hostWrite r v s).Inv := by
  cases r with
  | ctrl => exact h.writeCtrl v
  | status => exact h.writeStatus v
  | cmd => exact h.writeCmd v
  | prngState => exact h.writePrng v
  | opr x => exact h.frame _ _ _ _ _ _
  | _ => exact h

theorem State.Inv.hostAccess {s t : State} (h : s.Inv) {a : Access} (ht : hostAccess a s = .next t) : t.Inv := by
  obtain ⟨r, ⟨-, rfl⟩ | ⟨v, -, rfl⟩⟩ := hostAccess_next_slot ht
  · exact h.frame _ _ _ _ _ _
  · exact h.hostWrite r v

/-- Getting an r of [1, p − 2] into L_R for a running command whose checks passed keeps the invariant (R46). -/
theorem State.Inv.latched {s : State} (h : s.Inv) (hs : s.seq = .busy) (g : Rng) {r : BitVec 33}
    (hrange : 1 ≤ r.toNat ∧ r.toNat ≤ s.lop.b.toNat - 2)
    (hcmd : (decode s.lastCmd = .ok .encrypt ∧ encryptError { s with rng := g, lR := r } = none) ∨
      (decode s.lastCmd = .ok .encryptR ∧ encryptRError s = none ∧ r.toNat = s.lop.e.toNat)) :
    ({ s with rng := g, lR := r } : State).Inv where
  irqLevel := h.irqLevel
  doneIdle := h.doneIdle
  busyNoError := h.busyNoError
  errorZero := h.errorZero
  resultsFit := h.resultsFit
  ephemeralIdle := fun hi => by rw [hs] at hi; cases hi
  ephemeralRange := fun _ => ⟨hcmd, hrange⟩

theorem State.Inv.latchEphemeral {s : State} (h : s.Inv) : (latchEphemeral s).Inv := by
  obtain he | ⟨hs, hd, herr, -, r, g, hdraw, he⟩ | ⟨hs, hd, herr, he⟩ := latchEphemeral_cases s
  · rwa [he]
  · obtain ⟨⟨-, hb, -⟩, hp, -, -⟩ := encryptError_none herr
    have hr := draw_mem (by omega) hdraw
    rw [he]
    refine h.latched hs g ?_ (.inl ⟨hd, encryptError_latched herr hdraw⟩)
    rwa [ephemeral_toNat hr.2 hb]
  · obtain ⟨⟨-, hb, -⟩, -, h1, hle, -⟩ := encryptRError_none herr
    have hr := ephemeral_toNat hle hb
    rw [he]
    exact h.latched hs s.rng (by rw [hr]; exact ⟨h1, hle⟩) (.inr ⟨hd, herr, hr⟩)

/-- Settles O19, by cases on the move: a completion or a reset establishes the invariant, the other moves keep it. -/
theorem everyStepKeepsTheInvariant : Obligations.EveryStepKeepsTheInvariant := by
  unfold Obligations.EveryStepKeepsTheInvariant
  intro s t h hstep
  have hrest : ∀ rest, ({ s with inputs := rest } : State).Inv := fun rest => h.frame _ _ _ _ _ rest
  cases step_takes hstep with
  | idleTurn _ _ ht => rw [ht]; exact hrest _
  | completion _ _ ht => exact runCommand_inv ht
  | access a rest _ ht => exact (hrest rest).hostAccess ht
  | latchR rest _ ht => rw [ht]; exact (hrest rest).latchEphemeral
  | reset rest _ ht => rw [ht]; exact resetCore_inv _

/-- Settles O18: an idle core with no r, no error and zero results. -/
theorem resetMeetsTheInvariant : Obligations.ResetMeetsTheInvariant := reset_inv

end Sys2Proof.Machine
end

section
/-! PROOFS. What a step can change of SEQ, the results and ERRCODE (R36, R40, R44). -/

namespace Sys2Proof.Machine

/-- A host write to CMD is next. -/
def State.cmdWriteIsNext (s : State) : Prop := ∃ w rest, s.inputs = .access ⟨.w64, 0x20, .write w⟩ :: rest

/-- It is the sequencer's turn: its move is next, or no move is left (log entry 1). -/
def State.sequencerIsNext (s : State) : Prop := s.inputs = [] ∨ ∃ rest, s.inputs = .complete :: rest

/-- The reset input is next. -/
def State.resetIsNext (s : State) : Prop := ∃ rest, s.inputs = .reset :: rest

/-! These three exclude each other. -/

theorem State.cmdWriteIsNext.excludes {s : State} (h : s.cmdWriteIsNext) : ¬ s.sequencerIsNext ∧ ¬ s.resetIsNext := by
  obtain ⟨w, rest, hi⟩ := h
  simp [State.sequencerIsNext, State.resetIsNext, hi]

theorem State.sequencerIsNext.excludes {s : State} (h : s.sequencerIsNext) : ¬ s.cmdWriteIsNext ∧ ¬ s.resetIsNext := by
  obtain hi | ⟨rest, hi⟩ := h <;> simp [State.cmdWriteIsNext, State.resetIsNext, hi]

theorem State.resetIsNext.excludes {s : State} (h : s.resetIsNext) : ¬ s.cmdWriteIsNext ∧ ¬ s.sequencerIsNext := by
  obtain ⟨rest, hi⟩ := h
  simp [State.cmdWriteIsNext, State.sequencerIsNext, hi]

/-- What a step does to SEQ, the results and ERRCODE, by its move. -/
inductive StepChanges (s t : State) : Prop where
  | completion (hi : s.sequencerIsNext) (hs : s.seq = .busy) (ht : t.seq = .idle)
  | reset (hi : s.resetIsNext) (ht : t.seq = .idle)
  | acceptance (hi : s.cmdWriteIsNext) (hs : s.seq = .idle) (ht : t.seq = .busy)
      (hres : t.res0 = s.res0 ∧ t.res1 = s.res1 ∧ t.res2 = s.res2)
  | nothing (hc : s.seq = .idle → ¬ s.cmdWriteIsNext) (hq : s.seq = .busy → ¬ s.sequencerIsNext)
      (hr : ¬ s.resetIsNext) (ht : t.seq = s.seq) (hres : t.res0 = s.res0 ∧ t.res1 = s.res1 ∧ t.res2 = s.res2)
      (herr : t.errcode = s.errcode)

/-- Completion ends the running command (R205, R206). -/
theorem runCommand_seq {s t : State} (h : runCommand s = .next t) : t.seq = .idle := by
  obtain ⟨r0, r1, r2, -, -, -, ht⟩ | ⟨e, ht⟩ := runCommand_next h <;> rw [ht] <;> rfl

/-- A write to CMD is acceptance when idle and changes none of this when busy (R38, R100). -/
theorem stepChanges_of_cmdWrite {s : State} {rest : List Event} (hi : s.cmdWriteIsNext) (w : Word) :
    StepChanges s (writeCmd w { s with inputs := rest }) := by
  obtain ⟨hq, hr⟩ := hi.excludes
  obtain hs | hs := s.idle_or_busy
  · rw [writeCmd_of_idle w (s := { s with inputs := rest }) hs]
    exact .acceptance hi hs rfl ⟨rfl, rfl, rfl⟩
  · rw [writeCmd_of_busy w (s := { s with inputs := rest }) hs]
    exact .nothing (fun h => by rw [hs] at h; cases h) (fun _ => hq) hr rfl ⟨rfl, rfl, rfl⟩ rfl

theorem step_changes {s t : State} (h : step s = .next t) : StepChanges s t := by
  cases step_takes h with
  | idleTurn hi hs ht =>
    subst ht
    obtain ⟨hw, hr⟩ := State.sequencerIsNext.excludes hi
    exact .nothing (fun _ => hw) (fun hb => by rw [hs] at hb; cases hb) hr rfl ⟨rfl, rfl, rfl⟩ rfl
  | completion hi hs ht => exact .completion hi hs (runCommand_seq ht)
  | reset rest hi ht => subst ht; exact .reset ⟨rest, hi⟩ rfl
  | latchR rest hi ht =>
    rw [latchEphemeral_frame] at ht
    subst ht
    exact .nothing (fun _ => by simp [State.cmdWriteIsNext, hi]) (fun _ => by simp [State.sequencerIsNext, hi])
      (by simp [State.resetIsNext, hi]) rfl ⟨rfl, rfl, rfl⟩ rfl
  | access a rest hi ht =>
    have hq : ¬ s.sequencerIsNext := by simp [State.sequencerIsNext, hi]
    have hr : ¬ s.resetIsNext := by simp [State.resetIsNext, hi]
    obtain ⟨r, ⟨rfl, rfl⟩ | ⟨v, rfl, rfl⟩⟩ := hostAccess_next_slot ht
    · refine .nothing (fun _ => ?_) (fun _ => hq) hr rfl ⟨rfl, rfl, rfl⟩ rfl
      simp [State.cmdWriteIsNext, hi, readOf]
    · by_cases hcmd : r = .cmd
      · subst hcmd
        exact stepChanges_of_cmdWrite ⟨v, rest, hi⟩ v
      · refine .nothing (fun _ => ?_) (fun _ => hq) hr (hostWrite_seq hcmd _ _) (hostWrite_results _ _ _)
          ((hostWrite_errcode _ _ _).resolve_right fun h => hcmd h.1)
        rintro ⟨w, rest', hi'⟩
        have ha : writeOf r v = writeOf .cmd w := Event.access.inj (List.cons.inj (hi.symm.trans hi')).1
        exact hcmd (slot_of_writeOf_eq ha)

/-- Settles O20, by what the step does to SEQ. -/
theorem sequencerChangesInTwoWaysOnly : Obligations.SequencerChangesInTwoWaysOnly := by
  unfold Obligations.SequencerChangesInTwoWaysOnly
  intro s t h
  change (s.seq = .idle → (t.seq = .busy ↔ s.cmdWriteIsNext)) ∧
    (s.seq = .busy → (t.seq = .idle ↔ s.sequencerIsNext ∨ s.resetIsNext))
  cases step_changes h with
  | completion hi hs ht => simp [hi, hs, ht]
  | reset hi ht => simp [hi, ht, hi.excludes.1]
  | acceptance hi hs ht _ => simp [hi, hs, ht]
  | nothing hc hq hr ht _ _ =>
    rw [ht]
    exact ⟨fun hs => by simp [hs, hc hs], fun hs => by simp [hs, hq hs, hr]⟩

/-- Settles O23, by what the step does to the results and ERRCODE. -/
theorem resultsChangeOnlyAtCompletion : Obligations.ResultsChangeOnlyAtCompletion := by
  unfold Obligations.ResultsChangeOnlyAtCompletion
  intro s t h
  cases step_changes h with
  | completion hi hs _ => exact ⟨.inr (.inl ⟨hs, hi⟩), .inr (.inl ⟨hs, hi⟩)⟩
  | reset hi _ => exact ⟨.inr (.inr hi), .inr (.inr (.inr hi))⟩
  | acceptance hi hs _ hres => exact ⟨.inl hres, .inr (.inr (.inl ⟨hs, hi⟩))⟩
  | nothing _ _ _ _ hres herr => exact ⟨.inl hres, .inl herr⟩

end Sys2Proof.Machine
end

section
/-! PROOFS. The register window: what reads return, what writes store, and the values after reset (R30 to R41, R55). -/

namespace Sys2Proof.Machine

/-- Settles O8: each slot's read only records the slot's value. -/
theorem windowReads : Obligations.WindowReads := by
  unfold Obligations.WindowReads
  intro s
  have read (r : Reg) (hr : r ≠ .prngState) := hostAccess_read_of_ne_prng hr s
  refine ⟨read .id (by decide), ?_, read .cmd (by decide), read (.opr .a) (by decide), read (.opr .b) (by decide),
    read (.opr .c) (by decide), read (.opr .d) (by decide), read (.opr .e) (by decide), read .res0 (by decide),
    read .res1 (by decide), read .res2 (by decide), read .reserved70 (by decide), read .reserved78 (by decide)⟩
  refine (read .errcode (by decide)).trans ?_
  simp only [readReg, State.errcodeWord]
  cases s.errcode with
  | none => rfl
  | some e => cases e <;> rfl

/-- Settles O9: the reads record the words of CTRL and STATUS, whose bits are those of the flags. -/
theorem ctrlAndStatusBits : Obligations.CtrlAndStatusBits := by
  unfold Obligations.CtrlAndStatusBits
  intro s
  refine ⟨s.ctrlWord, s.statusWord, hostAccess_read_of_ne_prng (r := .ctrl) (by decide) s,
    hostAccess_read_of_ne_prng (r := .status) (by decide) s, ?_⟩
  simp only [getLsbD_ctrlWord, getLsbD_statusWord]
  refine ⟨s.rngMode.bit_eq_true_iff, rfl, fun n hn => List.getD_eq_default _ _ hn, decide_eq_true_iff, rfl,
    Option.isSome_iff_ne_none, rfl, s.rngMode.bit_eq_true_iff, fun n hn => List.getD_eq_default _ _ hn⟩

/-- Settles O10: PRNG_STATE's slot, when idle and when busy. -/
theorem prngStateAccess : Obligations.PrngStateAccess := by
  unfold Obligations.PrngStateAccess
  refine fun s x => ⟨fun hs => ⟨?_, ?_⟩, fun hs => ⟨?_, Config.busyPrngRead s.busyReads, ?_⟩⟩
  · exact (hostAccess_write .prngState x s).trans (congrArg _ (writePrng_of_idle x hs))
  · refine (hostAccess_read .prngState s).trans ?_
    simp [hostRead, readReg, readPrng, readIsFree, State.busy, hs]
  · exact (hostAccess_write .prngState x s).trans (congrArg _ (writePrng_of_busy x hs))
  · refine (hostAccess_read .prngState s).trans ?_
    simp [hostRead, readReg, readPrng, readIsFree, State.busy, hs]

/-- Settles O14: the write to each operand register's slot. -/
theorem operandWritesStore : Obligations.OperandWritesStore := by
  unfold Obligations.OperandWritesStore
  exact fun s x => ⟨hostAccess_write (.opr .a) x s, hostAccess_write (.opr .b) x s, hostAccess_write (.opr .c) x s,
    hostAccess_write (.opr .d) x s, hostAccess_write (.opr .e) x s⟩

/-- Settles O12: the write stores the two bits, and the bits of CTRL are then those of the value and no others. -/
theorem ctrlWriteStoresTwoBits : Obligations.CtrlWriteStoresTwoBits := by
  unfold Obligations.CtrlWriteStoresTwoBits
  refine fun s x => ⟨s.writeCtrl x, hostAccess_write .ctrl x s, ?_, ?_⟩
  · rw [← RngMode.ofBit_eq]; rfl
  · refine BitVec.eq_of_getLsbD_eq fun n _ => ?_
    have hmask : (3#64).getLsbD n = [true, true].getD n false := getLsbD_numberOfBits (bits := [true, true]) (by decide) n
    simp only [hmask, readReg, getLsbD_ctrlWord, State.writeCtrl_rngMode, State.writeCtrl_irqEn, RngMode.bit_ofBit,
      BitVec.getLsbD_and]
    match n with
    | 0 => simp
    | 1 => simp
    | n + 2 => simp

/-- Settles O13: of the bits of STATUS only DONE and OVR change, where bits 1 and 3 of the value are 1. -/
theorem statusWriteClearsOnes : Obligations.StatusWriteClearsOnes := by
  unfold Obligations.StatusWriteClearsOnes
  refine fun s x => ⟨s.writeStatus x, hostAccess_write .status x s, rfl, ?_⟩
  refine BitVec.eq_of_getLsbD_eq fun n hn => ?_
  have hmask : (0xA#64).getLsbD n = [false, true, false, true].getD n false :=
    getLsbD_numberOfBits (bits := [false, true, false, true]) (by decide) n
  simp only [hmask, readReg, getLsbD_statusWord, State.writeStatus_done, State.writeStatus_ovr, BitVec.getLsbD_and,
    BitVec.getLsbD_not, hn, decide_true, Bool.true_and]
  match n with
  | 0 => simp
  | 1 => simp
  | 2 => simp
  | 3 => simp
  | 4 => simp
  | n + 5 => simp

/-- Settles O16: State.reset field by field, and the read of each slot. -/
theorem resetValues : Obligations.ResetValues := by
  unfold Obligations.ResetValues
  refine ⟨rfl, rfl, rfl, rfl, rfl, rfl, rfl, rfl, rfl, rfl, rfl, rfl, rfl, rfl, rfl, rfl, fun r hr => ?_, rfl⟩
  cases r with
  | id => exact absurd rfl hr
  | opr x => cases x <;> rfl
  | _ => rfl

end Sys2Proof.Machine
end

section
/-! PROOFS. Draws and the PRNG (R50 to R52). -/

namespace Sys2Proof.Machine

/-- Settles O25: in either mode the value is brought into the range, where a value of the range stays what it is. -/
theorem drawsStayInTheirRange : Obligations.DrawsStayInTheirRange := by
  unfold Obligations.DrawsStayInTheirRange
  refine fun lo hi g h => ⟨fun mode v g' => draw_mem h, rfl, fun v hlo hhi rest => ?_,
    fun v g' => draw_entropy_prngState⟩
  simp [draw, entropyAnswer, intoRange, hlo, hhi]

/-- A left xorshift is additive over xor, so it is injective when only 0 maps to 0 (K1). -/
theorem xor_shiftLeft_injective {x y : Word} {k : Nat} (hk : 0 < k) (h : x ^^^ (x <<< k) = y ^^^ (y <<< k)) :
    x = y := by
  refine BitVec.xor_eq_zero_iff.1 (xor_shiftLeft_eq_zero hk ?_)
  calc (x ^^^ y) ^^^ ((x ^^^ y) <<< k) = (x ^^^ (x <<< k)) ^^^ (y ^^^ (y <<< k)) := by
        rw [BitVec.shiftLeft_xor_distrib]; ac_rfl
    _ = 0 := BitVec.xor_eq_zero_iff.2 h

/-- A right xorshift is injective, as a left one is (K1). -/
theorem xor_ushiftRight_injective {x y : Word} {k : Nat} (hk : 0 < k) (h : x ^^^ (x >>> k) = y ^^^ (y >>> k)) :
    x = y := by
  refine BitVec.xor_eq_zero_iff.1 (xor_ushiftRight_eq_zero hk ?_)
  calc (x ^^^ y) ^^^ ((x ^^^ y) >>> k) = (x ^^^ (x >>> k)) ^^^ (y ^^^ (y >>> k)) := by
        rw [BitVec.ushiftRight_xor_distrib]; ac_rfl
    _ = 0 := BitVec.xor_eq_zero_iff.2 h

/-- A PRNG step maps different states to different states: it is three injective xorshifts (K1). -/
theorem prngStep_injective {x y : Word} (h : prngStep x = prngStep y) : x = y :=
  xor_shiftLeft_injective (by decide) (xor_ushiftRight_injective (by decide) (xor_shiftLeft_injective (by decide) h))

theorem toNat_xor_shiftLeft (x : Word) (k : Nat) :
    (x ^^^ (x <<< k)).toNat = x.toNat ^^^ (x.toNat * 2 ^ k % 2 ^ 64) := by
  rw [BitVec.toNat_xor, BitVec.toNat_shiftLeft, Nat.shiftLeft_eq]

theorem toNat_xor_ushiftRight (x : Word) (k : Nat) : (x ^^^ (x >>> k)).toNat = x.toNat ^^^ (x.toNat / 2 ^ k) := by
  rw [BitVec.toNat_xor, BitVec.toNat_ushiftRight, Nat.shiftRight_eq_div_pow]

/-- Settles O26: the number of each of the three xorshifts in turn. -/
theorem prngStepIsAnInjectiveXorshift : Obligations.PrngStepIsAnInjectiveXorshift := by
  unfold Obligations.PrngStepIsAnInjectiveXorshift
  refine ⟨fun x => ⟨_, _, rfl, rfl, ?_⟩, by decide, fun x y => prngStep_injective⟩
  rw [← toNat_xor_shiftLeft, ← toNat_xor_ushiftRight, ← toNat_xor_shiftLeft]
  rfl

end Sys2Proof.Machine
end

section
/-! PROOFS. What a command does with the random-number state: the seed check, the number of draws, and the commands that
draw nothing (R42, R53). -/

namespace Sys2Proof.Machine

/-! ### Commands that never draw -/

/-- A command that never draws completes, alike for every random-number state, which it leaves as it was (R53). -/
theorem exec_of_never_draws {i : Instr}
    (hi : i = .modpow ∨ i = .modinv ∨ i = .mrround ∨ i = .encryptR ∨ i = .decrypt) (s : State) (g : Rng) :
    ∃ t, exec i s = .next t ∧ exec i { s with rng := g } = .next { t with rng := g } ∧ t.rng = s.rng := by
  have herr : encryptRError { s with rng := g } = encryptRError s := encryptRError_congr rfl
  rcases hi with rfl | rfl | rfl | rfl | rfl
  · simp only [exec, execModpow]
    repeat' split
    all_goals exact ⟨_, rfl, rfl, rfl⟩
  · simp only [exec, execModinv]
    repeat' split
    all_goals exact ⟨_, rfl, rfl, rfl⟩
  · simp only [exec, execMrround]
    repeat' split
    all_goals exact ⟨_, rfl, rfl, rfl⟩
  · simp only [exec, execEncryptR, herr]
    split
    all_goals exact ⟨_, rfl, rfl, rfl⟩
  · simp only [exec, execDecrypt]
    repeat' split
    all_goals exact ⟨_, rfl, rfl, rfl⟩

theorem rng_of_never_draws {i : Instr} (hi : i = .modpow ∨ i = .modinv ∨ i = .mrround ∨ i = .encryptR ∨ i = .decrypt)
    {s t : State} (h : exec i s = .next t) : t.rng = s.rng := by
  obtain ⟨t', h', -, hr⟩ := exec_of_never_draws hi s s.rng
  obtain rfl := Host.Outcome.next.inj (h.symm.trans h')
  exact hr

/-! ### The seed check -/

theorem encryptError_of_seedBad {s : State} (h : seedBad s = true) : encryptError s = some .invalidArgument := by
  simp only [encryptError, h, if_true]
  split
  · rfl
  · split <;> rfl

/-- A drawing command whose seed check fails ends with InvalidArgument, as the checks before that one do (R53, R104). -/
theorem exec_of_seedBad {i : Instr} (hi : i = .mrtest ∨ i = .findprime ∨ i = .encrypt) {s : State}
    (h : seedBad s = true) : exec i s = .next (s.failed .invalidArgument) := by
  rw [← fail_eq]
  rcases hi with rfl | rfl | rfl
  · simp only [exec, execMrtest, h, if_true]
    split
    · rfl
    · split <;> rfl
  · simp only [exec, execFindprime, h, if_true]
    split
    · rfl
    · split
      · rfl
      · split <;> rfl
  · simp only [exec, execEncrypt, encryptError_of_seedBad h]

/-- Settles O28: the seed check for the commands that draw, and the independence of those that do not. -/
theorem zeroSeedIsRejected : Obligations.ZeroSeedIsRejected := by
  unfold Obligations.ZeroSeedIsRejected
  refine ⟨fun i s hi hm h0 => exec_of_seedBad hi ((seedBad_eq_true_iff s).2 ⟨hm, h0⟩), fun i s g hi => ?_⟩
  obtain ⟨t, h, hg, -⟩ := exec_of_never_draws hi s g
  exact ⟨t, h, hg⟩

end Sys2Proof.Machine
end

section
/-! PROOFS. The number of draws of each command in deterministic mode (R42, R120, R160, R182), and what the random-number
state is to a command in either mode. -/

namespace Sys2Proof.Machine

/-! ### How the drawing commands end -/

/-- The number of rounds that MRTEST reports (R120). -/
def RoundsEnd.rounds (k : Nat) : RoundsEnd → Nat
  | .allPassed => k
  | .witness _ j => j

/-- MRTEST ends without a draw and reports no round, or it ends as its rounds do (R120). -/
theorem execMrtest_next {s t : State} (h : execMrtest s = .next t) :
    (t.rng = s.rng ∧ t.res2 = 0) ∨
    ∃ e g, mrRounds s.lMode s.lop.a.toNat s.lop.b.toNat 1 s.rng = some (e, g) ∧ t.rng = g ∧
      t.res2 = BitVec.ofNat 64 (e.rounds s.lop.b.toNat) := by
  simp only [execMrtest, finish_eq, fail_eq] at h
  iterate 6 (split at h; · cases h; exact .inl ⟨rfl, rfl⟩)
  split at h
  · cases h
  · next g hr => cases h; exact .inr ⟨_, g, hr, rfl, rfl⟩
  · next a j g hr => cases h; exact .inr ⟨_, g, hr, rfl, rfl⟩

/-- FINDPRIME ends with a failed check, or as its search does (R160, R165, R166). -/
theorem execFindprime_next {s t : State} (h : execFindprime s = .next t) :
    t = s.failed .invalidArgument ∨ 1 ≤ s.lop.a.toNat ∧
      ((∃ p i g, searchPrime s.lMode s.lop.a.toNat s.lop.b.toNat 1 s.rng = some (.found p i, g) ∧
          t = State.finished { s with rng := g } p Config.gen i) ∨
        ∃ g, searchPrime s.lMode s.lop.a.toNat s.lop.b.toNat 1 s.rng = some (.exhausted, g) ∧
          t = State.failed { s with rng := g } .generationFailed) := by
  simp only [execFindprime, finish_eq, fail_eq] at h
  split at h
  · cases h; exact .inl rfl
  · split at h
    · cases h; exact .inl rfl
    · next hk =>
      have hk1 : 1 ≤ s.lop.a.toNat := by simp only [Config.kGenMin] at hk; omega
      iterate 2 (split at h; · cases h; exact .inl rfl)
      split at h
      · cases h
      · next p i g hr => cases h; exact .inr ⟨hk1, .inl ⟨p, i, g, hr, rfl⟩⟩
      · next g hr => cases h; exact .inr ⟨hk1, .inr ⟨g, hr, rfl⟩⟩

/-- The cipher block of an r in L_R (R180). -/
theorem finishEncryption_eq (s : State) : finishEncryption s =
    .next (s.finished (modpow s.lop.c.toNat s.lR.toNat s.lop.b.toNat)
      (s.lop.a.toNat * modpow s.lop.d.toNat s.lR.toNat s.lop.b.toNat % s.lop.b.toNat) 0) :=
  finish_eq _ _ _ _

/-- ENCRYPT whose checks pass, with its r in L_R (R180, R182). -/
theorem execEncrypt_of_drawn {s s1 : State} (he : encryptError s = none) (hd : drawEphemeral s = some s1) :
    execEncrypt s = finishEncryption s1 := by
  simp only [execEncrypt, he, hd]

/-- ENCRYPT ends with a failed check, or with the cipher block of its r (R180). -/
theorem execEncrypt_next {s t : State} (h : execEncrypt s = .next t) :
    (∃ e, t = s.failed e) ∨ ∃ s1, drawEphemeral s = some s1 ∧ finishEncryption s1 = .next t := by
  simp only [execEncrypt, fail_eq] at h
  split at h
  · next e _ => cases h; exact .inl ⟨e, rfl⟩
  · split at h
    · cases h
    · next s1 hd => exact .inr ⟨s1, hd, h⟩

/-! ### The number of draws -/

/-- MRTEST makes as many draws as it reports rounds (R120). -/
theorem execMrtest_draws {s t : State} (hm : s.lMode = .deterministic) (h : execMrtest s = .next t) :
    ∃ d, DrawCount .mrtest s t d ∧ t.rng = { s.rng with prngState := prngStep^[d] s.rng.prngState } := by
  obtain ⟨hg, h2⟩ | ⟨e, g, hr, hg, h2⟩ := execMrtest_next h
  · exact ⟨0, ⟨by rw [h2]; rfl, Nat.zero_le _⟩, hg⟩
  · rw [hm] at hr
    obtain ⟨d, hdk, hrng, hd⟩ := mrRounds_draws hr
    have hrounds : e.rounds s.lop.b.toNat = d := by
      cases e with
      | allPassed => exact hd.symm
      | witness a j => simp only at hd; simp only [RoundsEnd.rounds]; omega
    refine ⟨d, ⟨?_, hdk⟩, hg.trans hrng⟩
    rw [h2, hrounds, BitVec.toNat_ofNat, Nat.mod_eq_of_lt (lt_of_le_of_lt hdk s.lop.b.isLt)]

/-- FINDPRIME's draws, by how its search ends (R160). -/
theorem execFindprime_draws {s t : State} (hm : s.lMode = .deterministic) (h : execFindprime s = .next t) :
    ∃ d, DrawCount .findprime s t d ∧ t.rng = { s.rng with prngState := prngStep^[d] s.rng.prngState } := by
  obtain rfl | ⟨hk, ⟨p, i, g, hr, rfl⟩ | ⟨g, hr, rfl⟩⟩ := execFindprime_next h
  · exact ⟨0, ⟨by simp, by simp, fun _ => rfl⟩, rfl⟩
  · rw [hm] at hr
    obtain ⟨d, ⟨h1, h2, h3, h4⟩, hg⟩ := searchPrime_draws hk hr
    have hi : (BitVec.ofNat 64 i).toNat = i := by
      have := s.lop.b.isLt
      rw [BitVec.toNat_ofNat, Nat.mod_eq_of_lt (by omega)]
    refine ⟨d, ⟨fun _ => ?_, by simp, by simp⟩, hg⟩
    rw [State.finished_res2, hi]
    rw [Nat.sub_add_cancel h1] at h4
    exact ⟨h1, by omega, h3, h4⟩
  · rw [hm] at hr
    obtain ⟨d, hd, hg⟩ := searchPrime_draws hk hr
    exact ⟨d, ⟨by simp, fun _ => hd, by simp⟩, hg⟩

/-- ENCRYPT's one draw, when it gets that far without an r (R182). -/
theorem execEncrypt_draws {s t : State} (hm : s.lMode = .deterministic) (h : execEncrypt s = .next t) :
    ∃ d, DrawCount .encrypt s t d ∧ t.rng = { s.rng with prngState := prngStep^[d] s.rng.prngState } := by
  obtain ⟨e, rfl⟩ | ⟨s1, hd, hf⟩ := execEncrypt_next h
  · exact ⟨0, (if_neg fun hn => by cases hn.1).symm, rfl⟩
  · rw [finishEncryption_eq] at hf
    obtain rfl := Host.Outcome.next.inj hf
    obtain ⟨hR, rfl⟩ | ⟨r, g, hR, hdr, rfl⟩ := drawEphemeral_some hd
    · exact ⟨0, (if_neg fun hn => hR hn.2).symm, rfl⟩
    · rw [hm] at hdr
      exact ⟨1, (if_pos ⟨rfl, hR⟩).symm, draw_deterministic_rng hdr⟩

/-- In deterministic mode a command advances PRNG_STATE once for each of its draws (R42, R53). -/
theorem exec_draws {i : Instr} {s t : State} (hm : s.lMode = .deterministic) (h : exec i s = .next t) :
    ∃ d, DrawCount i s t d ∧ t.rng = { s.rng with prngState := prngStep^[d] s.rng.prngState } := by
  cases i with
  | mrtest => exact execMrtest_draws hm h
  | findprime => exact execFindprime_draws hm h
  | encrypt => exact execEncrypt_draws hm h
  | _ => exact ⟨0, rfl, rng_of_never_draws (by simp) h⟩

/-- Settles O27, from what a draw does in each mode. -/
theorem randomStateFrame : Obligations.RandomStateFrame := by
  unfold Obligations.RandomStateFrame
  refine fun i s t h => ⟨fun hm => ⟨?_, fun x => ?_⟩, fun hm => exec_draws hm h, fun hi => rng_of_never_draws hi h⟩
  · have hkept : KeptByDraws s.lMode fun g => g.prngState = s.rng.prngState := by
      rw [hm]
      exact fun lo hi g v g' hd hg => (draw_entropy_prngState hd).trans hg
    have hends := exec_ends i s _ hkept rfl
    rw [h] at hends
    exact hends.next.1
  · have hx := exec_entropy_setPrng i s x hm
    rwa [h] at hx

end Sys2Proof.Machine
end

section
/-! PROOFS. The ephemeral r: an r that ENCRYPT holds is the one it uses, the early step changes no result, and L_R is never
shown (R46, R180 to R183); and what a command's results depend on (R47, R197). -/

namespace Sys2Proof.Machine

/-- The checks of ENCRYPT pass on legal operands, seed and block (R104, R180). -/
theorem encryptError_eq_none {s : State} (hf : OperandsFit .encrypt s) (hp : 3 ≤ s.lop.b.toNat) (hs : SeedOk s)
    (hm : s.lop.a.toNat < s.lop.b.toNat) : encryptError s = none := by
  simp only [encryptError, (widthOk_iff .encrypt s).2 hf, (seedBad_eq_false_iff s).2 hs]
  rw [if_neg (by decide), if_neg (by omega), if_neg (by decide), if_neg (by omega)]

/-- An r that is in L_R already is not drawn again (R182; log entry 6). -/
theorem drawEphemeral_of_held {s : State} (hR : s.lR ≠ 0) : drawEphemeral s = some s :=
  if_neg hR

/-- Settles O38: ENCRYPT draws nothing, and the modexp engine computes the powers with the r it holds. -/
theorem encryptUsesTheEphemeralItHolds : Obligations.EncryptUsesTheEphemeralItHolds := by
  unfold Obligations.EncryptUsesTheEphemeralItHolds
  intro s hf hp hs hm hR
  have hpow : ∀ x, modpow x s.lR.toNat s.lop.b.toNat = x ^ s.lR.toNat % s.lop.b.toNat := fun x =>
    modpow_eq_pow_mod x _ _ (by omega) s.lR.isLt
  calc exec .encrypt s = finishEncryption s :=
        execEncrypt_of_drawn (encryptError_eq_none hf hp hs hm) (drawEphemeral_of_held hR)
    _ = _ := by rw [finishEncryption_eq, hpow, hpow]

/-- ENCRYPT after its early draw ends as when it draws at completion: r is not 0, so it is not drawn again (R46). -/
theorem execEncrypt_of_early_draw {s : State} (he : encryptError s = none) (h0 : s.lR = 0) {r : Nat} {g : Rng}
    (hd : draw s.lMode 1 (s.lop.b.toNat - 2) s.rng = some (r, g)) :
    execEncrypt { s with rng := g, lR := BitVec.ofNat 33 r } = execEncrypt s := by
  obtain ⟨⟨-, hb, -⟩, hp, -, -⟩ := encryptError_none he
  obtain ⟨h1, h2⟩ := draw_mem (by omega) hd
  have hlate : drawEphemeral s = some { s with rng := g, lR := BitVec.ofNat 33 r } := by
    simp only [drawEphemeral, h0, hd, if_true]
  have hearly := drawEphemeral_of_held (s := { s with rng := g, lR := BitVec.ofNat 33 r })
    (ephemeral_ne_zero h1 h2 hb)
  exact (execEncrypt_of_drawn (encryptError_latched he hd) hearly).trans (execEncrypt_of_drawn he hlate).symm

/-- ENCRYPT_R takes its r from operand E whatever L_R holds (R185). -/
theorem execEncryptR_of_any_ephemeral (s : State) (x : BitVec 33) :
    execEncryptR { s with lR := x } = execEncryptR s := by
  have he : encryptRError { s with lR := x } = encryptRError s := encryptRError_congr rfl
  simp only [execEncryptR, he]
  cases encryptRError s <;> rfl

/-- Settles O48, by what the early step does. -/
theorem earlyEphemeralChangesNoResult : Obligations.EarlyEphemeralChangesNoResult := by
  unfold Obligations.EarlyEphemeralChangesNoResult
  intro i s _ hi h0
  obtain h | ⟨-, hcmd, he, -, r, g, hd, h⟩ | ⟨-, hcmd, -, h⟩ := latchEphemeral_cases s
  · rw [h]
  · obtain rfl : i = .encrypt := Except.ok.inj (hi.symm.trans hcmd)
    rw [h]
    exact execEncrypt_of_early_draw he h0 hd
  · obtain rfl : i = .encryptR := Except.ok.inj (hi.symm.trans hcmd)
    rw [h]
    exact execEncryptR_of_any_ephemeral s _

/-- A command that goes on has set L_R to 0 (R46, R205, R206). -/
theorem exec_lR {i : Instr} {s t : State} (h : exec i s = .next t) : t.lR = 0 := by
  have hends := exec_ends i s (fun _ => True) (fun _ _ _ _ _ _ _ => trivial) trivial
  rw [h] at hends
  obtain ⟨r0, r1, r2, -, -, -, ht⟩ | ⟨e, -, ht⟩ := hends.next.2 <;> rw [ht] <;> rfl

/-- Settles O49: no slot's value mentions L_R, and both completions clear it. -/
theorem ephemeralIsNeverShown : Obligations.EphemeralIsNeverShown := by
  unfold Obligations.EphemeralIsNeverShown
  exact ⟨fun s x r => by cases r <;> rfl, fun i s t => exec_lR⟩

/-- Settles O47: the two commands end alike. -/
theorem resultsDependOnLatchesAndDrawsOnly : Obligations.ResultsDependOnLatchesAndDrawsOnly := by
  unfold Obligations.ResultsDependOnLatchesAndDrawsOnly
  intro i s u t hl hm hr hR h
  have halike := exec_alike (s := s) (u := u) i (fun x _ => by rw [hl]) hm hr hR
  rw [h] at halike
  generalize exec i u = o at halike ⊢
  cases halike with
  | finished g r0 r1 r2 _ v ht hv => subst ht hv; exact ⟨_, rfl, rfl, rfl, rfl, rfl, rfl⟩
  | failed g e _ v ht hv => subst ht hv; exact ⟨_, rfl, rfl, rfl, rfl, rfl, rfl⟩

end Sys2Proof.Machine
end

section
/-! PROOFS. A command word and its byte lanes, and which accesses EGCORE answers (R72, R73, R74, R90). -/

namespace Sys2Proof.Machine

/-! ### Byte lanes -/

@[simp] theorem length_lanesOf (n v : Nat) : (lanesOf n v).length = n := by
  induction n generalizing v with
  | zero => rfl
  | succ n ih => simp [lanesOf, ih]

/-- The number laid out on `n` byte lanes is read back, but for what lies above those lanes (R74). -/
theorem wordOfLanes_lanesOf (n v : Nat) : wordOfLanes (lanesOf n v) = v % 256 ^ n := by
  induction n generalizing v with
  | zero => simp [lanesOf, wordOfLanes, Nat.mod_one]
  | succ n ih =>
    calc wordOfLanes (lanesOf (n + 1) v) = v % 256 + 256 * (v / 256 % 256 ^ n) := by
          simp [lanesOf, wordOfLanes, ih]
      _ = v % 256 ^ (n + 1) := by rw [pow_succ', Nat.mod_mul]

/-- The eight byte lanes of a word carry the whole word (R74, R90). -/
theorem decodeBytes_lanesOf (w : Word) : decodeBytes (lanesOf 8 w.toNat) = decode w := by
  have hword : wordOfLanes (lanesOf 8 w.toNat) = w.toNat := (wordOfLanes_lanesOf 8 _).trans (Nat.mod_eq_of_lt w.isLt)
  rw [decodeBytes, if_pos (length_lanesOf 8 _), hword, BitVec.ofNat_toNat, BitVec.setWidth_eq]

/-- Settles O3, from the decoder's law for every command and the reading back of byte lanes. -/
theorem decodeAndEncodeAgree : Obligations.DecodeAndEncodeAgree := by
  unfold Obligations.DecodeAndEncodeAgree
  exact ⟨Laws.Encoding.decode_iff, decodeBytes_lanesOf⟩

/-! ### Accesses refused and answered -/

/-- A slot's offset is a multiple of 8, so another offset has no slot (R30). -/
theorem regAt_of_misaligned {off : Nat} (h8 : off % 8 ≠ 0) : regAt off = none := by
  cases hr : regAt off with
  | none => rfl
  | some r => exact absurd (regAt_some hr ▸ regOffset_aligned r) h8

/-- In the window, an access of another width or alignment is refused with its address (R72, R215). -/
theorem hostAccess_refused {a : Access} (s : State) (ha : a.off < 128) (h : ¬(a.width = .w64 ∧ a.off % 8 = 0)) :
    hostAccess a s = .fault (.busError (accessAddr a)) := by
  have hin : ¬Config.windowBytes ≤ a.off := Nat.not_le.2 ha
  rw [hostAccess, if_neg hin]
  by_cases hw : a.width = .w64
  · rw [if_neg (not_not.2 hw), regAt_of_misaligned fun h8 => h ⟨hw, h8⟩]
  · rw [if_pos hw]

/-- In the window, an aligned 64-bit access is answered, as every such offset has a slot (R72). -/
theorem hostAccess_answered {a : Access} (s : State) (ha : a.off < 128) (hw : a.width = .w64) (h8 : a.off % 8 = 0) :
    ∃ t, hostAccess a s = .next t := by
  obtain ⟨r, hr⟩ := regAt_aligned ha h8
  obtain ⟨width, off, kind⟩ := a
  obtain rfl : width = .w64 := hw
  obtain rfl : off = regOffset r := regAt_some hr
  cases kind with
  | read => exact ⟨_, hostAccess_read r s⟩
  | write v => exact ⟨_, hostAccess_write r v s⟩

/-- Settles O15: the access is refused or it reaches a slot. -/
theorem busErrorsExactly : Obligations.BusErrorsExactly := by
  unfold Obligations.BusErrorsExactly
  exact fun s a ha => ⟨hostAccess_refused s ha, fun ⟨hw, h8⟩ => hostAccess_answered s ha hw h8⟩

/-- Settles O11: the reads and writes of the slots at these offsets. -/
theorem reservedOffsetsAndReadOnlyWrites : Obligations.ReservedOffsetsAndReadOnlyWrites := by
  unfold Obligations.ReservedOffsetsAndReadOnlyWrites
  intro s x
  have read (r : Reg) (hr : r ≠ .prngState) := hostAccess_read_of_ne_prng hr s
  have write (r : Reg) := hostAccess_write r x s
  constructor
  · rintro off (rfl | rfl)
    · exact ⟨read .reserved70 (by decide), write .reserved70⟩
    · exact ⟨read .reserved78 (by decide), write .reserved78⟩
  · rintro off (rfl | rfl | rfl | rfl | rfl)
    · exact write .id
    · exact write .errcode
    · exact write .res0
    · exact write .res1
    · exact write .res2

end Sys2Proof.Machine
end

section
/-! PROOFS. The decoder and the opcode table (R90 to R95). -/

namespace Sys2Proof.Machine

/-- A command's word decodes to the command (R90, R92). -/
@[simp] theorem decode_encode (i : Instr) : decode (encode i) = .ok i :=
  (Laws.Encoding.decode_iff _ i).2 rfl

/-- Settles O1: each of the eight words is its command's word. -/
theorem opcodeMapWords : Obligations.OpcodeMapWords := by
  unfold Obligations.OpcodeMapWords
  exact ⟨decode_encode .modpow, decode_encode .modinv, decode_encode .mrtest, decode_encode .mrround,
    decode_encode .findprime, decode_encode .encrypt, decode_encode .encryptR, decode_encode .decrypt⟩

/-- Decoding succeeds exactly when MBZ is 0 and the opcode map has the OPCODE (R94). -/
theorem decode_eq_ok_iff (w : Word) (i : Instr) :
    decode w = .ok i ↔ mbzOf w = 0 ∧ instrOfOpcode (opcodeOf w) = some i := by
  rw [decode]
  by_cases hm : mbzOf w = 0
  · cases ho : instrOfOpcode (opcodeOf w) with
    | none => simp [hm]
    | some j => simp [hm]
  · simp only [hm, if_false, false_and, reduceCtorEq]

/-- Each row of the opcode table tests all 64 bits for its command's word (R94). -/
theorem opcodeTable_row : ∀ row ∈ opcodeTable,
    row.mask = 0xFFFFFFFFFFFFFFFF#64 ∧ row.pattern = encode row.instr := by
  decide

/-- Every command has a row in the opcode table (R92). -/
theorem exists_opcodeTable_row (i : Instr) : ∃ row ∈ opcodeTable, row.instr = i := by
  cases i <;> decide

/-- A word meets a row exactly when it is the word of the row's command (R94). -/
theorem meets_row_iff {row : OpcodeRow} (hrow : row ∈ opcodeTable) (w : Word) :
    w &&& row.mask = row.pattern ↔ w = encode row.instr := by
  obtain ⟨hmask, hpattern⟩ := opcodeTable_row row hrow
  rw [hmask, hpattern, show 0xFFFFFFFFFFFFFFFF#64 = BitVec.allOnes 64 from rfl, BitVec.and_allOnes]

/-- Settles O2: the decoder's test, and the table's rows as the commands' words. -/
theorem decoderFollowsTheOpcodeTable : Obligations.DecoderFollowsTheOpcodeTable := by
  unfold Obligations.DecoderFollowsTheOpcodeTable
  refine ⟨decode_eq_ok_iff, fun w i => ?_, fun row hrow => ?_⟩
  · rw [Laws.Encoding.decode_iff]
    constructor
    · rintro rfl
      obtain ⟨row, hrow, rfl⟩ := exists_opcodeTable_row i
      exact ⟨row, hrow, rfl, (meets_row_iff hrow _).2 rfl⟩
    · rintro ⟨row, hrow, rfl, hw⟩
      exact (meets_row_iff hrow w).1 hw
  · obtain ⟨hmask, hpattern⟩ := opcodeTable_row row hrow
    exact ⟨hmask, (decode_eq_ok_iff _ _).1 (hpattern ▸ decode_encode row.instr)⟩

/-- The opcode map has the OPCODEs 0x01 to 0x08 (R92, R95). -/
theorem exists_instrOfOpcode_iff (op : BitVec 8) :
    (∃ i, instrOfOpcode op = some i) ↔ 1 ≤ op.toNat ∧ op.toNat ≤ 8 := by
  constructor
  · rintro ⟨i, hi⟩
    rw [Laws.Encoding.opcode_of_instr hi]
    cases i <;> decide
  · rintro ⟨h1, h8⟩
    simp only [instrOfOpcode]
    generalize op.toNat = n at h1 h8 ⊢
    interval_cases n <;> exact ⟨_, rfl⟩

/-- The illegal words are those that decode to no command (R95). -/
theorem illegalWord_iff (w : Word) : IllegalWord w ↔ ¬ ∃ i, decode w = .ok i := by
  simp only [decode_eq_ok_iff, exists_and_left, exists_instrOfOpcode_iff, IllegalWord, mbzOf, opcodeOf]
  by_cases hm : w.extractLsb' 8 56 = 0
  · simp only [hm, ne_eq, not_true_eq_false, false_or, true_and]
    omega
  · simp only [hm, ne_eq, not_false_eq_true, true_or, false_and]

end Sys2Proof.Machine
end

section
/-! PROOFS. A write to CMD, and the command that runs after it (R38, R95, R100, R101). -/

namespace Sys2Proof.Machine

/-- The step that takes a write of a slot. -/
theorem step_of_write {s : State} {r : Reg} {v : Word} {rest : List Event}
    (hi : s.inputs = .access (writeOf r v) :: rest) : step s = .next (hostWrite r v { s with inputs := rest }) :=
  (step_of_move hi).trans (hostAccess_write r v _)

/-- A step that writes CMD when idle is acceptance (R100). -/
theorem step_of_cmdWrite_idle {s : State} {w : Word} {rest : List Event} (hs : s.seq = .idle)
    (hi : s.inputs = .access (writeOf .cmd w) :: rest) :
    step s = .next (State.accepted { s with inputs := rest } w) :=
  (step_of_write hi).trans (congrArg _ (writeCmd_of_idle w hs))

/-- A step that writes CMD when busy is dropped (R38). -/
theorem step_of_cmdWrite_busy {s : State} {w : Word} {rest : List Event} (hs : s.seq = .busy)
    (hi : s.inputs = .access (writeOf .cmd w) :: rest) :
    step s = .next (State.overrun { s with inputs := rest }) :=
  (step_of_write hi).trans (congrArg _ (writeCmd_of_busy w hs))

/-- Settles O7: acceptance when idle and the dropped write when busy. -/
theorem cmdWriteAcceptsOrIsDropped : Obligations.CmdWriteAcceptsOrIsDropped := by
  unfold Obligations.CmdWriteAcceptsOrIsDropped
  exact fun s w rest hi => ⟨fun hs => step_of_cmdWrite_idle hs hi, fun hs => step_of_cmdWrite_busy hs hi⟩

/-- A completion among the moves is the sequencer's turn. -/
theorem step_of_complete {s : State} {rest : List Event} (hi : s.inputs = .complete :: rest) :
    step s = sequencerTurn { s with inputs := rest } :=
  step_of_move hi

/-- A word given as its number is placed as it is. -/
theorem withFetchWord_toNat (s : State) (w : Word) :
    s.withFetchWord 64 w.toNat = { s.accepted w with inputs := .complete :: s.inputs } := by
  simp only [State.withFetchWord, Nat.mod_eq_of_lt w.isLt, BitVec.ofNat_toNat, BitVec.setWidth_eq, accept_eq]

/-- Settles O6: the placed completion is the sequencer's turn, and the accepted word decodes to its command. -/
theorem placedWordRunsNext : Obligations.PlacedWordRunsNext := by
  unfold Obligations.PlacedWordRunsNext
  intro s i
  rw [withFetchWord_toNat]
  exact (step_of_complete (rest := s.inputs) rfl).trans
    (sequencerTurn_of_running (s := s.accepted (encode i)) rfl (decode_encode i))

/-- A running illegal word completes with IllegalCommand (R95). -/
theorem sequencerTurn_of_illegal {s : State} (hs : s.seq = .busy) (hw : IllegalWord s.lastCmd) :
    sequencerTurn s = .next (s.failed .illegalCommand) := by
  cases hd : decode s.lastCmd with
  | ok i => exact absurd ⟨i, hd⟩ ((illegalWord_iff _).1 hw)
  | error e => simp only [sequencerTurn, hs, runCommand, hd, fail_eq]

/-- Settles O4: which words are illegal, their acceptance, and the completion after it. -/
theorem illegalWordsCompleteWithIllegalCommand : Obligations.IllegalWordsCompleteWithIllegalCommand := by
  unfold Obligations.IllegalWordsCompleteWithIllegalCommand
  refine ⟨illegalWord_iff, fun s w rest hw hs hi => ⟨step_of_cmdWrite_idle hs hi, ?_⟩⟩
  exact (step_of_complete (rest := rest) rfl).trans
    (sequencerTurn_of_illegal (s := State.accepted { s with inputs := rest } w) rfl hw)

end Sys2Proof.Machine
end

section
/-! PROOFS. Completion when every draw is answered: of a command, and of a running core among other moves (R101,
R245). -/

namespace Sys2Proof.Machine

/-- A source that answers every draw goes on doing so (R245). -/
theorem draws_keep_answered (mode : RngMode) : KeptByDraws mode fun g => none ∉ g.answers := by
  intro lo hi g v g' hd hg
  obtain ⟨v', g1, hd', h1⟩ := draw_answered mode lo hi g hg
  obtain ⟨-, rfl⟩ := Prod.mk.inj (Option.some.inj (hd.symm.trans hd'))
  exact h1

/-- The command of a word has completed, and every draw is still answered. -/
structure Completed (w : Word) (t : State) : Prop where
  idle : t.seq = .idle
  done : t.done = true
  lastCmd : t.lastCmd = w
  answered : AlwaysAnswered t

/-- The command of a word runs, with the given moves to come and every draw still answered. -/
structure Running (w : Word) (moves : List Event) (s : State) : Prop where
  busy : s.seq = .busy
  lastCmd : s.lastCmd = w
  answered : AlwaysAnswered s
  inputs : s.inputs = moves

/-! ### The steps that complete a command -/

theorem finished_completed (s : State) {g : Rng} (hg : none ∉ g.answers) (r0 r1 r2 : Nat) :
    Completed s.lastCmd (State.finished { s with rng := g } r0 r1 r2) := ⟨rfl, rfl, rfl, hg⟩

theorem failed_completed (s : State) {g : Rng} (hg : none ∉ g.answers) (e : ErrorKind) :
    Completed s.lastCmd (State.failed { s with rng := g } e) := ⟨rfl, rfl, rfl, hg⟩

/-- A command completes when no draw is unanswered: it ends with results or an error, and is not stuck (R101, R245). -/
theorem exec_completes (i : Instr) {s : State} (h : AlwaysAnswered s) :
    ∃ t, exec i s = .next t ∧ Completed s.lastCmd t := by
  have hends := exec_ends i s _ (draws_keep_answered s.lMode) h
  generalize exec i s = o at hends ⊢
  cases hends with
  | finished g r0 r1 r2 hg => exact ⟨_, rfl, finished_completed s hg r0 r1 r2⟩
  | failed g e hg => exact ⟨_, rfl, failed_completed s hg e⟩
  | stuck hn => exact absurd hn h

/-- Settles O43, by how a command can end: only an unanswered draw keeps it from completing. -/
theorem everyCommandCompletes : Obligations.EveryCommandCompletes := by
  unfold Obligations.EveryCommandCompletes
  intro i s h
  obtain ⟨t, ht, hc⟩ := exec_completes i h
  exact ⟨t, ht, hc.idle, hc.done, hc.answered⟩

/-- The sequencer's turn completes a running command, an illegal word included (R95, R101). -/
theorem sequencerTurn_completes {s : State} (hs : s.seq = .busy) (h : AlwaysAnswered s) :
    ∃ t, sequencerTurn s = .next t ∧ Completed s.lastCmd t := by
  cases hd : decode s.lastCmd with
  | ok i => rw [sequencerTurn_of_running hs hd]; exact exec_completes i h
  | error e =>
    have hw : IllegalWord s.lastCmd := (illegalWord_iff _).2 (by simp [hd])
    exact ⟨_, sequencerTurn_of_illegal hs hw, failed_completed s h _⟩

/-! ### The moves that leave a command running -/

section
variable {w : Word} {moves : List Event} {s : State}

theorem Running.overrun (h : Running w moves s) : Running w moves s.overrun :=
  ⟨h.busy, h.lastCmd, h.answered, h.inputs⟩

/-- No host write disturbs the running command (R38, R41, R45). -/
theorem Running.hostWrite (h : Running w moves s) (r : Reg) (v : Word) : Running w moves (hostWrite r v s) := by
  cases r with
  | cmd => rw [Machine.hostWrite, writeCmd_of_busy v h.busy]; exact h.overrun
  | prngState => rw [Machine.hostWrite, writePrng_of_busy v h.busy]; exact h.overrun
  | _ => exact ⟨h.busy, h.lastCmd, h.answered, h.inputs⟩

/-- A well-formed access is answered and does not disturb the running command (R72). -/
theorem Running.hostAccess (h : Running w moves s) {a : Access} (ha : a.wf = true) :
    ∃ t, hostAccess a s = .next t ∧ Running w moves t := by
  simp only [Access.wf, Bool.and_eq_true, decide_eq_true_eq] at ha
  obtain ⟨⟨hw, h8⟩, hoff⟩ := ha
  obtain ⟨t, ht⟩ := hostAccess_answered s hoff hw h8
  refine ⟨t, ht, ?_⟩
  obtain ⟨r, ⟨-, rfl⟩ | ⟨v, -, rfl⟩⟩ := hostAccess_next_slot ht
  · exact ⟨h.busy, h.lastCmd, h.answered, h.inputs⟩
  · exact h.hostWrite r v

/-- The sequencer's early step does not end the running command (R46). -/
theorem Running.latchEphemeral (h : Running w moves s) : Running w moves (latchEphemeral s) := by
  obtain he | ⟨-, -, -, -, r, g, hd, he⟩ | ⟨-, -, -, he⟩ := latchEphemeral_cases s <;> rw [he]
  · exact h
  · exact ⟨h.busy, h.lastCmd, draws_keep_answered _ _ _ _ _ _ hd h.answered, h.inputs⟩
  · exact ⟨h.busy, h.lastCmd, h.answered, h.inputs⟩

/-- A safe move other than a reset completes the running command or leaves it running. -/
theorem Running.move (h : Running w moves s) {e : Event} (he : safeMove e = true) (hr : e ≠ .reset) :
    ∃ t, move e s = .next t ∧ (Completed w t ∨ Running w moves t) := by
  cases e with
  | access a =>
    obtain ⟨t, ht, hrun⟩ := h.hostAccess he
    exact ⟨t, ht, .inr hrun⟩
  | complete =>
    obtain ⟨t, ht, hc⟩ := sequencerTurn_completes h.busy h.answered
    exact ⟨t, ht, .inl (h.lastCmd ▸ hc)⟩
  | latchR => exact ⟨_, rfl, .inr h.latchEphemeral⟩
  | reset => exact absurd rfl hr

end

/-! ### The run -/

/-- A run that begins with a step to a next state. -/
theorem run_succ_of_step {s t : State} (h : step s = .next t) (n : Nat) :
    Host.Core.run core (n + 1) s = Host.Core.run core n t := by
  have hc : core.step s = .next t := h
  simp only [Host.Core.run, hc]

/-- A running command completes within one step more than there are moves: each move completes it or leaves it running
with one move less, and when none is left it is the sequencer's turn (R245; log entry 1). -/
theorem Running.run_completes {w : Word} {moves : List Event} {s : State} (h : Running w moves s)
    (hsafe : ∀ e ∈ moves, safeMove e = true ∧ e ≠ .reset) :
    ∃ n ≤ moves.length + 1, ∃ t, Host.Core.run core n s = .next t ∧ Completed w t := by
  induction moves generalizing s with
  | nil =>
    obtain ⟨t, ht, hc⟩ := sequencerTurn_completes h.busy h.answered
    exact ⟨1, le_refl 1, t, run_succ_of_step ((step_of_no_move h.inputs).trans ht) 0, h.lastCmd ▸ hc⟩
  | cons e rest ih =>
    obtain ⟨⟨he, hr⟩, hrest⟩ := List.forall_mem_cons.1 hsafe
    have hmove : Running w rest { s with inputs := rest } := ⟨h.busy, h.lastCmd, h.answered, rfl⟩
    obtain ⟨t, ht, hc | hrun⟩ := hmove.move he hr
    · exact ⟨1, by simp, t, run_succ_of_step ((step_of_move h.inputs).trans ht) 0, hc⟩
    · obtain ⟨n, hn, u, hu, hc⟩ := ih hrun hrest
      exact ⟨n + 1, by simpa using hn, u, (run_succ_of_step ((step_of_move h.inputs).trans ht) n).trans hu, hc⟩

/-- Settles O45, by induction on the moves to come. -/
theorem runningCommandCompletesInBoundedSteps : Obligations.RunningCommandCompletesInBoundedSteps := by
  unfold Obligations.RunningCommandCompletesInBoundedSteps
  intro s hs h hsafe
  obtain ⟨n, hn, t, ht, hc⟩ := Running.run_completes ⟨hs, rfl, h, rfl⟩ hsafe
  exact ⟨n, hn, t, ht, hc.idle, hc.done, hc.lastCmd⟩

end Sys2Proof.Machine
end

section
/-! PROOFS. Operand registers: what a change of one leaves as it was, the operands a command does not read, and the line
of a host program that writes those it reads (R92, R93, R110). -/

namespace Sys2Proof.Machine

theorem Operands.get_set (o : Operands) (x y : Operand) (v : Word) :
    (o.set x v).get y = if y = x then v else o.get y := by
  cases x <;> cases y <;> rfl

@[simp] theorem Operands.get_set_self (o : Operands) (x : Operand) (v : Word) : (o.set x v).get x = v := by
  rw [Operands.get_set, if_pos rfl]

theorem Operands.get_set_of_ne (o : Operands) {x y : Operand} (h : y ≠ x) (v : Word) :
    (o.set x v).get y = o.get y := by
  rw [Operands.get_set, if_neg h]

/-- Settles O46: a command ends alike when the operands of its format are the same. -/
theorem unreadOperandsHaveNoEffect : Obligations.UnreadOperandsHaveNoEffect := by
  unfold Obligations.UnreadOperandsHaveNoEffect
  intro i s x v hx t h
  have halike := exec_alike (s := s) (u := { s with lop := s.lop.set x v }) i
    (fun y hy => (Operands.get_set_of_ne _ (ne_of_mem_of_not_mem hy hx) v).symm) rfl rfl rfl
  rw [h] at halike
  generalize exec i { s with lop := s.lop.set x v } = o at halike ⊢
  cases halike with
  | finished g r0 r1 r2 _ _ ht hv => subst ht hv; rfl
  | failed g e _ _ ht hv => subst ht hv; rfl

/-! ### The line that writes the arguments of a command -/

/-- The operands after writes of the given values, one after another. -/
def Operands.setAll (o : Operands) (writes : List (Operand × Word)) : Operands :=
  writes.foldl (fun o p => o.set p.1 p.2) o

theorem Operands.setAll_cons (o : Operands) (p : Operand × Word) (writes : List (Operand × Word)) :
    o.setAll (p :: writes) = (o.set p.1 p.2).setAll writes := rfl

/-- An operand that is not written keeps its value. -/
theorem Operands.get_setAll_of_not_mem {x : Operand} {writes : List (Operand × Word)} {o : Operands}
    (hx : x ∉ writes.map Prod.fst) : (o.setAll writes).get x = o.get x := by
  induction writes generalizing o with
  | nil => rfl
  | cons p writes ih =>
    rw [List.map_cons, List.mem_cons, not_or] at hx
    rw [Operands.setAll_cons, ih hx.2, Operands.get_set_of_ne o hx.1]

/-- An operand that is written once holds the value written. -/
theorem Operands.get_setAll_of_mem {x : Operand} {v : Word} {writes : List (Operand × Word)} {o : Operands}
    (hnodup : (writes.map Prod.fst).Nodup) (h : (x, v) ∈ writes) : (o.setAll writes).get x = v := by
  induction writes generalizing o with
  | nil => cases h
  | cons p writes ih =>
    rw [List.map_cons, List.nodup_cons] at hnodup
    rw [Operands.setAll_cons]
    obtain rfl | h := List.mem_cons.1 h
    · rw [Operands.get_setAll_of_not_mem hnodup.1, Operands.get_set_self]
    · exact ih hnodup.2 h

/-- Of as many arguments as operands, none of them listed twice, each operand holds the argument at its position. -/
theorem Operands.getElem?_eq_get_setAll {xs : List Operand} {args : List Word} {k : Nat} {x : Operand} (o : Operands)
    (hlen : args.length = xs.length) (hnodup : xs.Nodup) (hk : xs[k]? = some x) :
    args[k]? = some ((o.setAll (xs.zip args)).get x) := by
  obtain ⟨hkx, -⟩ := List.getElem?_eq_some_iff.1 hk
  have hka : args[k]? = some args[k] := List.getElem?_eq_getElem (hlen ▸ hkx)
  have hmem : (x, args[k]) ∈ xs.zip args := List.mem_of_getElem? (List.getElem?_zip_eq_some.2 ⟨hk, hka⟩)
  have hfst : ((xs.zip args).map Prod.fst).Nodup := by rwa [List.map_fst_zip hlen.ge]
  rw [hka, Operands.get_setAll_of_mem hfst hmem]

/-- No format lists an operand twice (R93). -/
theorem formatOperands_nodup (f : Format) : (formatOperands f).Nodup := by
  cases f <;> decide

/-- A run that begins with writes of operand registers goes on from the state in which they are written (R39). -/
theorem run_writes_of_operands (writes : List (Operand × Word)) {rest : List Event} (n : Nat) {s : State}
    (hi : s.inputs = writes.map (fun p => .access (writeOf (.opr p.1) p.2)) ++ rest) :
    Host.Core.run core (writes.length + n) s =
      Host.Core.run core n { s with op := s.op.setAll writes, inputs := rest } := by
  induction writes generalizing s with
  | nil =>
    obtain rfl : s.inputs = rest := hi
    rw [List.length_nil, Nat.zero_add]
    rfl
  | cons p writes ih =>
    rw [List.length_cons, Nat.add_right_comm, run_succ_of_step (step_of_write hi), ih rfl]
    rfl

/-- The argument writes of a line take one step each (R93, R110). -/
theorem run_operandWrites {f : Format} {args : List Word} (hlen : args.length = (formatOperands f).length)
    {rest : List Event} (n : Nat) {s : State} (hi : s.inputs = operandWrites f args ++ rest) :
    Host.Core.run core (args.length + n) s =
      Host.Core.run core n { s with op := s.op.setAll ((formatOperands f).zip args), inputs := rest } := by
  have hcount : ((formatOperands f).zip args).length = args.length := by simp [hlen]
  rw [← hcount, run_writes_of_operands _ n hi]

/-- Settles O50: the argument writes, one step each, then the acceptance. -/
theorem hostNotationLatchesItsArguments : Obligations.HostNotationLatchesItsArguments := by
  unfold Obligations.HostNotationLatchesItsArguments
  intro s i args lat rest hlen hs hi
  refine ⟨s.op.setAll ((formatOperands i.format).zip args), fun k x hk => ?_, fun x hx => ?_, ?_⟩
  · exact Operands.getElem?_eq_get_setAll _ hlen (formatOperands_nodup _) hk
  · exact Operands.get_setAll_of_not_mem (by rwa [List.map_fst_zip hlen.ge])
  · rw [lineMoves, List.append_assoc, List.append_assoc] at hi
    rw [run_operandWrites hlen 1 hi]
    refine run_succ_of_step (step_of_cmdWrite_idle ?_ rfl) 0
    exact hs

end Sys2Proof.Machine
end

section
/-! PROOFS. MRROUND: the outcome of the round, and its operand checks (R121, R122, R125). -/

namespace Sys2Proof.Machine

/-- The operands that MRROUND accepts (R125). -/
structure MrroundLegal (s : State) : Prop where
  fit : OperandsFit .mrround s
  five_le : 5 ≤ s.lop.a.toNat
  odd : s.lop.a.toNat % 2 = 1
  two_le : 2 ≤ s.lop.b.toNat
  le : s.lop.b.toNat ≤ s.lop.a.toNat - 2

theorem MrroundLegal.mrRound_iff {s : State} (h : MrroundLegal s) :
    mrRound s.lop.a.toNat s.lop.b.toNat = true ↔ StrongPass s.lop.a.toNat s.lop.b.toNat :=
  Machine.mrRound_iff _ _ h.five_le h.fit.1 h.odd

theorem exec_mrround_of_legal {s : State} (h : MrroundLegal s) :
    exec .mrround s =
      .next (if mrRound s.lop.a.toNat s.lop.b.toNat then s.finished 1 0 1 else s.finished 0 s.lop.b.toNat 1) := by
  obtain ⟨hfit, h5, hodd, h2, hle⟩ := h
  have hw := (widthOk_iff .mrround s).2 hfit
  simp only [exec, execMrround, hw, finish_eq]
  rw [if_neg (by decide), if_neg (by omega), if_neg (by omega)]
  split <;> rfl

theorem exec_mrround_of_pass {s : State} (h : MrroundLegal s) (hp : StrongPass s.lop.a.toNat s.lop.b.toNat) :
    exec .mrround s = .next (s.finished 1 0 1) := by
  rw [exec_mrround_of_legal h, if_pos (h.mrRound_iff.2 hp)]

theorem exec_mrround_of_fail {s : State} (h : MrroundLegal s) (hp : ¬ StrongPass s.lop.a.toNat s.lop.b.toNat) :
    exec .mrround s = .next (s.finished 0 s.lop.b.toNat 1) := by
  rw [exec_mrround_of_legal h, if_neg (mt h.mrRound_iff.1 hp)]

theorem exec_mrround_of_not_legal {s : State} (h : ¬ MrroundLegal s) :
    exec .mrround s = .next (s.failed .invalidArgument) := by
  rw [← fail_eq]
  simp only [exec, execMrround]
  split
  · rfl
  · next hw =>
    split
    · rfl
    · next hn =>
      split
      · rfl
      · next ha =>
        have hfit := (widthOk_iff .mrround s).1 (Bool.of_not_eq_false hw)
        exact absurd ⟨hfit, by omega, by omega, by omega, by omega⟩ h

/-- Settles O31: the round's outcome on legal operands, and the failed check on all others. -/
theorem mrroundResult : Obligations.MrroundResult := by
  unfold Obligations.MrroundResult
  refine ⟨decode_encode .mrround, fun s => ⟨fun hfit h5 hodd h2 hle => ?_, fun hbad => ?_⟩⟩
  · have h : MrroundLegal s := ⟨hfit, h5, hodd, h2, hle⟩
    exact ⟨exec_mrround_of_pass h, exec_mrround_of_fail h⟩
  · refine exec_mrround_of_not_legal fun ⟨hfit, h5, hodd, h2, hle⟩ => ?_
    rcases hbad with hbad | hbad
    · exact hbad hfit
    · omega

end Sys2Proof.Machine
end

section
/-! PROOFS. MRTEST: its operand and seed checks, the trivial answers, and the series of rounds on drawn bases (R120 to
R123). -/

namespace Sys2Proof.Machine

/-! ### Rounds in terms of the strong test -/

section
variable {mode : RngMode} {n : Nat} (h5 : 5 ≤ n) (h33 : n < 2 ^ 33) (hodd : n % 2 = 1)
include h5 h33 hodd

theorem mrRounds_of_strongPasses {bases : List Nat} {g g' : Rng} (hd : Draws mode 2 (n - 2) g bases g')
    (hp : ∀ b ∈ bases, StrongPass n b) (j : Nat) :
    mrRounds mode n bases.length j g = some (.allPassed, g') :=
  (mrRounds_allPassed_iff ..).2 ⟨bases, hd, rfl, fun b hb => (mrRound_iff n b h5 h33 hodd).2 (hp b hb)⟩

theorem mrRounds_of_first_failure {bases : List Nat} {a k : Nat} {g g' : Rng}
    (hd : Draws mode 2 (n - 2) g (bases ++ [a]) g') (hk : bases.length < k) (hp : ∀ b ∈ bases, StrongPass n b)
    (ha : ¬ StrongPass n a) (j : Nat) :
    mrRounds mode n k j g = some (.witness a (j + bases.length), g') :=
  (mrRounds_witness_iff ..).2 ⟨bases, hd, hk, rfl, fun b hb => (mrRound_iff n b h5 h33 hodd).2 (hp b hb),
    Bool.eq_false_iff.2 (mt (mrRound_iff n a h5 h33 hodd).1 ha)⟩

/-- A reported witness is a drawn base that fails the strong test, in a round that was made (R120, R123). -/
theorem mrRounds_witness_fails {a i k j : Nat} {g g' : Rng}
    (h : mrRounds mode n k j g = some (.witness a i, g')) :
    2 ≤ a ∧ a ≤ n - 2 ∧ ¬ StrongPass n a ∧ j ≤ i ∧ i < j + k := by
  obtain ⟨bases, hd, hk, rfl, -, ha⟩ := (mrRounds_witness_iff ..).1 h
  obtain ⟨h2, hle⟩ := hd.mem (by omega) a (by simp)
  exact ⟨h2, hle, mt (mrRound_iff n a h5 h33 hodd).2 (Bool.eq_false_iff.1 ha), by omega, by omega⟩

end

/-! ### The checks and the answers -/

/-- The checks of MRTEST pass (R53, R120). -/
structure MrtestLegal (s : State) : Prop where
  fit : OperandsFit .mrtest s
  one_le : 1 ≤ s.lop.b.toNat
  le : s.lop.b.toNat ≤ 255
  seed : SeedOk s

/-- How MRTEST ends once its rounds have ended (R120). -/
def State.afterRounds (s : State) : Option (RoundsEnd × Rng) → Result
  | none => .fault .entropyNeverAnswers
  | some (.allPassed, g) => .next (State.finished { s with rng := g } 1 0 s.lop.b.toNat)
  | some (.witness a j, g) => .next (State.finished { s with rng := g } 0 a j)

theorem exec_mrtest_of_not_legal {s : State} (h : ¬ MrtestLegal s) :
    exec .mrtest s = .next (s.failed .invalidArgument) := by
  rw [← fail_eq]
  simp only [exec, execMrtest]
  split
  · rfl
  · next hw =>
    split
    · rfl
    · next hk =>
      split
      · rfl
      · next hs =>
        have hfit := (widthOk_iff .mrtest s).1 (Bool.of_not_eq_false hw)
        have hseed := (seedBad_eq_false_iff s).1 (Bool.eq_false_iff.2 hs)
        simp only [Config.kMax] at hk
        exact absurd ⟨hfit, by omega, by omega, hseed⟩ h

/-- MRTEST behind its checks: the trivial answers, and the rounds for an odd n from 5 on (R120). -/
theorem exec_mrtest_of_legal {s : State} (h : MrtestLegal s) :
    exec .mrtest s =
      if s.lop.a.toNat < 2 then .next (s.finished 0 0 0)
      else if s.lop.a.toNat = 2 ∨ s.lop.a.toNat = 3 then .next (s.finished 1 0 0)
      else if s.lop.a.toNat % 2 = 0 then .next (s.finished 0 0 0)
      else s.afterRounds (mrRounds s.lMode s.lop.a.toNat s.lop.b.toNat 1 s.rng) := by
  obtain ⟨hfit, h1, hle, hseed⟩ := h
  have hw := (widthOk_iff .mrtest s).2 hfit
  have hs := (seedBad_eq_false_iff s).2 hseed
  have hk : ¬ (s.lop.b.toNat < 1 ∨ Config.kMax < s.lop.b.toNat) := by simp only [Config.kMax]; omega
  simp only [exec, execMrtest, hw, hs, finish_eq]
  rw [if_neg (by decide), if_neg hk, if_neg (by decide)]
  rcases mrRounds s.lMode s.lop.a.toNat s.lop.b.toNat 1 s.rng with _ | ⟨_ | ⟨a, j⟩, g⟩ <;> rfl

section
variable {s : State} (h : MrtestLegal s)
include h

theorem exec_mrtest_of_lt_two (hn : s.lop.a.toNat < 2) : exec .mrtest s = .next (s.finished 0 0 0) := by
  rw [exec_mrtest_of_legal h, if_pos hn]

theorem exec_mrtest_of_two_or_three (hn : s.lop.a.toNat = 2 ∨ s.lop.a.toNat = 3) :
    exec .mrtest s = .next (s.finished 1 0 0) := by
  rw [exec_mrtest_of_legal h, if_neg (by omega), if_pos hn]

theorem exec_mrtest_of_even (h4 : 4 ≤ s.lop.a.toNat) (he : s.lop.a.toNat % 2 = 0) :
    exec .mrtest s = .next (s.finished 0 0 0) := by
  rw [exec_mrtest_of_legal h, if_neg (by omega), if_neg (by omega), if_pos he]

theorem exec_mrtest_of_odd (h5 : 5 ≤ s.lop.a.toNat) (ho : s.lop.a.toNat % 2 = 1) :
    exec .mrtest s = s.afterRounds (mrRounds s.lMode s.lop.a.toNat s.lop.b.toNat 1 s.rng) := by
  rw [exec_mrtest_of_legal h, if_neg (by omega), if_neg (by omega), if_neg (by omega)]

end

/-- Settles O32: the failed checks, then the trivial answers, then the two ways in which a series of rounds ends. -/
theorem mrtestResult : Obligations.MrtestResult := by
  unfold Obligations.MrtestResult
  refine ⟨decode_encode .mrtest, fun s => ⟨fun hbad => ?_, fun hfit h1 hle hseed => ?_⟩⟩
  · refine exec_mrtest_of_not_legal fun ⟨hfit, h1, hle, hseed⟩ => ?_
    rcases hbad with hbad | hbad | hbad | hbad
    · exact hbad hfit
    · omega
    · omega
    · exact hbad hseed
  · have h : MrtestLegal s := ⟨hfit, h1, hle, hseed⟩
    refine ⟨exec_mrtest_of_lt_two h, exec_mrtest_of_two_or_three h, exec_mrtest_of_even h,
      fun h5 ho => ⟨fun bases g hd hl hp => ?_, fun bases a g hd hl hp ha => ?_⟩⟩
    · rw [exec_mrtest_of_odd h h5 ho, ← hl, mrRounds_of_strongPasses h5 hfit.1 ho hd hp, State.afterRounds, hl]
    · rw [exec_mrtest_of_odd h h5 ho, mrRounds_of_first_failure h5 hfit.1 ho hd hl hp ha, State.afterRounds,
        Nat.add_comm]

/-- Settles O33: the trivial answers make no round, and rounds whose draws are all answered end, with a witness that
fails the strong test or without one. -/
theorem mrtestGivesAVerdict : Obligations.MrtestGivesAVerdict := by
  unfold Obligations.MrtestGivesAVerdict
  intro s hfit h1 hle hseed hans
  have h : MrtestLegal s := ⟨hfit, h1, hle, hseed⟩
  by_cases h2 : s.lop.a.toNat < 2
  · exact ⟨0, 0, 0, s.rng, exec_mrtest_of_lt_two h h2, Nat.zero_le _, .inr (.inl ⟨rfl, rfl, rfl⟩)⟩
  by_cases h3 : s.lop.a.toNat = 2 ∨ s.lop.a.toNat = 3
  · exact ⟨1, 0, 0, s.rng, exec_mrtest_of_two_or_three h h3, Nat.zero_le _, .inl ⟨rfl, rfl⟩⟩
  by_cases he : s.lop.a.toNat % 2 = 0
  · exact ⟨0, 0, 0, s.rng, exec_mrtest_of_even h (by omega) he, Nat.zero_le _, .inr (.inl ⟨rfl, rfl, rfl⟩)⟩
  have h5 : 5 ≤ s.lop.a.toNat := by omega
  have ho : s.lop.a.toNat % 2 = 1 := by omega
  obtain ⟨e, g, hr, -⟩ := mrRounds_answered s.lMode s.lop.a.toNat s.lop.b.toNat 1 s.rng hans
  have hexec := exec_mrtest_of_odd h h5 ho
  rw [hr] at hexec
  cases e with
  | allPassed => exact ⟨1, 0, _, g, hexec, le_refl _, .inl ⟨rfl, rfl⟩⟩
  | witness a j =>
    obtain ⟨ha2, hale, ha, hj1, hjk⟩ := mrRounds_witness_fails h5 hfit.1 ho hr
    exact ⟨0, a, j, g, hexec, by omega, .inr (.inr ⟨rfl, ha2, hale, hj1, ha⟩)⟩

/-! ### Primes -/

theorem prime_two_or_three_or_odd {n : Nat} (hn : n.Prime) : (n = 2 ∨ n = 3) ∨ (5 ≤ n ∧ n % 2 = 1) := by
  have h2 := hn.two_le
  have hodd := hn.eq_two_or_odd
  omega

/-- No series of rounds on a prime finds a witness (R122). -/
theorem mrRounds_of_prime {mode : RngMode} {n k j : Nat} {g g' : Rng} {e : RoundsEnd} (hn : n.Prime) (h5 : 5 ≤ n)
    (h33 : n < 2 ^ 33) (hodd : n % 2 = 1) (h : mrRounds mode n k j g = some (e, g')) : e = .allPassed := by
  cases e with
  | allPassed => rfl
  | witness a i =>
    obtain ⟨h2, hle, ha, -⟩ := mrRounds_witness_fails h5 h33 hodd h
    exact absurd (strongPass_of_prime n a hn h5 h2 hle) ha

/-- MRTEST that ends without an error has passed its checks (R104, R206). -/
theorem mrtestLegal_of_next {s t : State} (h : exec .mrtest s = .next t) (ht : t.errcode = none) : MrtestLegal s := by
  by_contra hn
  rw [exec_mrtest_of_not_legal hn] at h
  obtain rfl := Host.Outcome.next.inj h
  cases ht

/-- MRTEST gives a prime the verdict 1 and no witness (R122). -/
theorem exec_mrtest_of_prime {s t : State} (hn : s.lop.a.toNat.Prime) (h : exec .mrtest s = .next t)
    (ht : t.errcode = none) : t.res0 = 1 ∧ t.res1 = 0 := by
  have hl := mrtestLegal_of_next h ht
  rcases prime_two_or_three_or_odd hn with h3 | ⟨h5, ho⟩
  · rw [exec_mrtest_of_two_or_three hl h3] at h
    obtain rfl := Host.Outcome.next.inj h
    exact ⟨rfl, rfl⟩
  · rw [exec_mrtest_of_odd hl h5 ho] at h
    rcases hr : mrRounds s.lMode s.lop.a.toNat s.lop.b.toNat 1 s.rng with _ | ⟨e, g⟩
    · rw [hr] at h
      cases h
    · rw [hr, mrRounds_of_prime hn h5 hl.fit.1 ho hr] at h
      obtain rfl := Host.Outcome.next.inj h
      exact ⟨rfl, rfl⟩

/-- Settles O34: every base of the range is a strong pass of a prime, so neither command finds a failing one. -/
theorem primesAreNeverDeclaredComposite : Obligations.PrimesAreNeverDeclaredComposite := by
  unfold Obligations.PrimesAreNeverDeclaredComposite
  refine ⟨fun s hfit hn h5 h2 hle => ?_, fun s t hn => exec_mrtest_of_prime hn⟩
  have hodd : s.lop.a.toNat % 2 = 1 := hn.eq_two_or_odd.resolve_left (by omega)
  exact exec_mrround_of_pass ⟨hfit, h5, hodd, h2, hle⟩ (strongPass_of_prime _ _ hn h5 h2 hle)

end Sys2Proof.Machine
end

section
/-! PROOFS. MODPOW and MODINV: the power and the unique inverse, and the checks of their operands (R140, R150, R151). -/

namespace Sys2Proof.Machine

/-! ### MODPOW -/

theorem exec_modpow_of_legal {s : State} (hfit : OperandsFit .modpow s) (hn : 2 ≤ s.lop.c.toNat) :
    exec .modpow s = .next (s.finished (s.lop.a.toNat ^ s.lop.b.toNat % s.lop.c.toNat) 0 0) := by
  have hw := (widthOk_iff .modpow s).2 hfit
  obtain ⟨-, he, -⟩ := hfit
  simp only [exec, execModpow, hw, finish_eq]
  rw [if_neg (by decide), if_neg (by omega), modpow_eq_pow_mod _ _ _ hn he]

theorem exec_modpow_of_not_legal {s : State} (h : ¬ OperandsFit .modpow s ∨ s.lop.c.toNat < 2) :
    exec .modpow s = .next (s.failed .invalidArgument) := by
  rw [← fail_eq]
  simp only [exec, execModpow]
  split
  · rfl
  · next hw =>
    have hfit := (widthOk_iff .modpow s).1 (Bool.of_not_eq_false hw)
    exact if_pos (h.resolve_left (not_not.2 hfit))

/-- Settles O29: the power modulo n on legal operands, and the failed check on all others. -/
theorem modpowResult : Obligations.ModpowResult := by
  unfold Obligations.ModpowResult
  exact ⟨decode_encode .modpow, fun s => ⟨exec_modpow_of_legal, exec_modpow_of_not_legal⟩⟩

/-! ### MODINV -/

theorem exec_modinv_of_legal {s : State} (hfit : OperandsFit .modinv s) (hn : 2 ≤ s.lop.b.toNat) :
    exec .modinv s = if Nat.gcd (s.lop.a.toNat % s.lop.b.toNat) s.lop.b.toNat ≠ 1 then
        .next (s.failed .noInverseExists)
      else .next (s.finished (modinv (s.lop.a.toNat % s.lop.b.toNat) s.lop.b.toNat) 0 0) := by
  have hw := (widthOk_iff .modinv s).2 hfit
  simp only [exec, execModinv, hw, finish_eq, fail_eq]
  rw [if_neg (by decide), if_neg (by omega)]

theorem exec_modinv_of_not_legal {s : State} (h : ¬ OperandsFit .modinv s ∨ s.lop.b.toNat < 2) :
    exec .modinv s = .next (s.failed .invalidArgument) := by
  rw [← fail_eq]
  simp only [exec, execModinv]
  split
  · rfl
  · next hw =>
    have hfit := (widthOk_iff .modinv s).1 (Bool.of_not_eq_false hw)
    exact if_pos (h.resolve_left (not_not.2 hfit))

/-- An inverse modulo n below n is the only one: a factor prime to n cancels (R151). -/
theorem eq_of_mul_mod_eq_one {a n x y : Nat} (hg : Nat.gcd a n = 1) (hx : x < n) (hy : y < n)
    (hax : a * x % n = 1) (hay : a * y % n = 1) : y = x := by
  have hmod : a * y ≡ a * x [MOD n] := hay.trans hax.symm
  exact (hmod.cancel_left_of_coprime (by rwa [Nat.gcd_comm])).eq_of_lt_of_lt hy hx

/-- Settles O30: the inverse is the unit's value, and it is unique because `a mod n` is prime to n. -/
theorem modinvResult : Obligations.ModinvResult := by
  unfold Obligations.ModinvResult
  refine ⟨decode_encode .modinv, fun s =>
    ⟨fun hfit hn hg => ?_, fun hfit hn hg => ?_, exec_modinv_of_not_legal⟩⟩
  · obtain ⟨h1, hlt, hinv⟩ := modinv_spec _ _ hn hfit.2 (Nat.mod_lt _ (by omega)) hg
    refine ⟨_, h1, by omega, hinv, fun y _ hy hyinv => ?_, ?_⟩
    · exact eq_of_mul_mod_eq_one hg hlt (by omega) hinv hyinv
    · rw [exec_modinv_of_legal hfit hn, if_neg (not_not.2 hg)]
  · rw [exec_modinv_of_legal hfit hn, if_pos hg]

end Sys2Proof.Machine
end

section
/-! PROOFS. FINDPRIME: its operand and seed checks, and the search as the candidates it discards and the one it finds (R160
to R166). -/

namespace Sys2Proof.Machine

/-! ### One candidate of the search -/

/-- A candidate is an odd number of exactly 33 bits (R161). -/
theorem candidate_range {u : Nat} (hu : u ≤ 2 ^ 31 - 1) :
    2 ^ 32 + 1 ≤ candidate u ∧ candidate u ≤ 2 ^ 33 - 1 ∧ candidate u % 2 = 1 := by
  simp only [candidate]
  omega

/-- A drawn candidate is a number that the rounds and the acceptance checks judge rightly (R121, R163). -/
theorem candidate_of_draw {mode : RngMode} {u : Nat} {g g1 : Rng}
    (hd : draw mode 0 (2 ^ 31 - 1) g = some (u, g1)) :
    5 ≤ candidate u ∧ candidate u < 2 ^ 33 ∧ candidate u % 2 = 1 := by
  have hrange := candidate_range (draw_mem (by omega) hd).2
  omega

section
variable {mode : RngMode} {k u : Nat} {g g1 g2 : Rng} (left i : Nat)

theorem searchPrime_of_witness {a j : Nat} (hd : draw mode 0 (2 ^ 31 - 1) g = some (u, g1))
    (hr : mrRounds mode (candidate u) k 1 g1 = some (.witness a j, g2)) :
    searchPrime mode k (left + 1) i g = searchPrime mode k left (i + 1) g2 := by
  simp only [searchPrime, hd, hr]

theorem searchPrime_of_allPassed (hd : draw mode 0 (2 ^ 31 - 1) g = some (u, g1))
    (hr : mrRounds mode (candidate u) k 1 g1 = some (.allPassed, g2)) :
    searchPrime mode k (left + 1) i g =
      if generatorOk (candidate u) then some (.found (candidate u) i, g2)
      else searchPrime mode k left (i + 1) g2 := by
  simp only [searchPrime, hd, hr]

/-- A discarded candidate takes the search to the next one (R162, R163). -/
theorem searchPrime_of_candidateDiscarded (h : CandidateDiscarded mode k g g2) :
    searchPrime mode k (left + 1) i g = searchPrime mode k left (i + 1) g2 := by
  obtain ⟨u, g1, hd, hc⟩ := h
  obtain ⟨h5, h33, hodd⟩ := candidate_of_draw hd
  rcases hc with ⟨bases, a, hdraws, hlt, hpass, ha⟩ | ⟨bases, hdraws, rfl, hpass, hp⟩
  · exact searchPrime_of_witness left i hd (mrRounds_of_first_failure h5 h33 hodd hdraws hlt hpass ha 1)
  · have hgen : ¬ generatorOk (candidate u) = true := mt (generatorOk_iff_prime _ (by omega) h33).1 hp
    rw [searchPrime_of_allPassed left i hd (mrRounds_of_strongPasses h5 h33 hodd hdraws hpass 1), if_neg hgen]

/-- A candidate that is a prime with 2 as a primitive root passes every round and both checks, whatever its bases
(R165). -/
theorem searchPrime_of_candidateFound {p : Nat} (h : CandidateFound mode k g p g2) :
    searchPrime mode k (left + 1) i g = some (.found p i, g2) := by
  obtain ⟨u, g1, bases, hd, hpu, hdraws, rfl, hp⟩ := h
  obtain rfl : p = candidate u := hpu
  obtain ⟨h5, h33, hodd⟩ := candidate_of_draw hd
  have hpass : ∀ b ∈ bases, StrongPass (candidate u) b := fun b hb => by
    obtain ⟨h2, hle⟩ := hdraws.mem (by omega) b hb
    exact strongPass_of_prime _ _ hp.1 h5 h2 hle
  have hgen := (generatorOk_iff_prime _ (by omega) h33).2 hp
  rw [searchPrime_of_allPassed left i hd (mrRounds_of_strongPasses h5 h33 hodd hdraws hpass 1), if_pos hgen]

end

/-! ### Candidates in a row -/

/-- So many discarded candidates take the search that far (R160). -/
theorem searchPrime_of_discarded {mode : RngMode} {k n : Nat} {g g' : Rng} (h : Discarded mode k n g g')
    (left i : Nat) : searchPrime mode k (n + left) i g = searchPrime mode k left (i + n) g' := by
  induction h generalizing left with
  | zero => rw [Nat.zero_add, Nat.add_zero]
  | succ _ c ih =>
    rw [Nat.add_right_comm, Nat.add_assoc, ih, searchPrime_of_candidateDiscarded _ _ c, Nat.add_assoc]

/-- The search finds the first candidate that is not discarded (R160, R165). -/
theorem searchPrime_of_first_found {mode : RngMode} {k n N p : Nat} {g g1 g2 : Rng} (hn : n < N)
    (hd : Discarded mode k n g g1) (hf : CandidateFound mode k g1 p g2) (i : Nat) :
    searchPrime mode k N i g = some (.found p (i + n), g2) := by
  obtain ⟨left, rfl⟩ := Nat.exists_eq_add_of_lt hn
  rw [Nat.add_assoc, searchPrime_of_discarded hd, searchPrime_of_candidateFound _ _ hf]

/-- The search is exhausted when all its candidates are discarded (R166). -/
theorem searchPrime_of_all_discarded {mode : RngMode} {k N : Nat} {g g' : Rng} (hd : Discarded mode k N g g')
    (i : Nat) : searchPrime mode k N i g = some (.exhausted, g') :=
  searchPrime_of_discarded hd 0 i

/-- What a search finds is a prime of 33 bits with 2 as a primitive root, by Lucas' converse of Fermat's theorem (R164). -/
theorem searchPrime_found_prime {mode : RngMode} {k left j p i : Nat} {g g' : Rng}
    (h : searchPrime mode k left j g = some (.found p i, g')) :
    PrimeWithGeneratorTwo p ∧ 2 ^ 32 + 1 ≤ p ∧ p ≤ 2 ^ 33 - 1 := by
  obtain ⟨hgen, ⟨u, hu, rfl⟩, -⟩ := searchPrime_found h
  obtain ⟨hlo, hhi, -⟩ := candidate_range hu
  exact ⟨(generatorOk_iff_prime _ (by omega) (by omega)).1 hgen, hlo, hhi⟩

/-! ### The checks and the answers -/

/-- The checks of FINDPRIME pass (R53, R160). -/
structure FindprimeLegal (s : State) : Prop where
  fit : OperandsFit .findprime s
  twenty_le : 20 ≤ s.lop.a.toNat
  le : s.lop.a.toNat ≤ 255
  one_le : 1 ≤ s.lop.b.toNat
  seed : SeedOk s

/-- How FINDPRIME ends once its search has ended (R164, R166). -/
def State.afterSearch (s : State) : Option (SearchEnd × Rng) → Result
  | none => .fault .entropyNeverAnswers
  | some (.found p i, g) => .next (State.finished { s with rng := g } p 2 i)
  | some (.exhausted, g) => .next (State.failed { s with rng := g } .generationFailed)

theorem exec_findprime_of_not_legal {s : State} (h : ¬ FindprimeLegal s) :
    exec .findprime s = .next (s.failed .invalidArgument) := by
  rw [← fail_eq]
  simp only [exec, execFindprime]
  split
  · rfl
  · next hw =>
    split
    · rfl
    · next hk =>
      split
      · rfl
      · next hb =>
        split
        · rfl
        · next hs =>
          have hfit := (widthOk_iff .findprime s).1 (Bool.of_not_eq_false hw)
          have hseed := (seedBad_eq_false_iff s).1 (Bool.eq_false_iff.2 hs)
          simp only [Config.kGenMin, Config.kMax] at hk
          exact absurd ⟨hfit, by omega, by omega, by omega, hseed⟩ h

/-- FINDPRIME behind its checks is its search (R160). -/
theorem exec_findprime_of_legal {s : State} (h : FindprimeLegal s) :
    exec .findprime s = s.afterSearch (searchPrime s.lMode s.lop.a.toNat s.lop.b.toNat 1 s.rng) := by
  obtain ⟨hfit, h20, hle, h1, hseed⟩ := h
  have hw := (widthOk_iff .findprime s).2 hfit
  have hs := (seedBad_eq_false_iff s).2 hseed
  have hk : ¬ (s.lop.a.toNat < Config.kGenMin ∨ Config.kMax < s.lop.a.toNat) := by
    simp only [Config.kGenMin, Config.kMax]
    omega
  simp only [exec, execFindprime, hw, hs, finish_eq, fail_eq]
  rw [if_neg (by decide), if_neg hk, if_neg (by omega), if_neg (by decide)]
  rcases searchPrime s.lMode s.lop.a.toNat s.lop.b.toNat 1 s.rng with _ | ⟨_ | _, g⟩ <;> rfl

/-- Settles O35: the failed checks, then the two ways in which the search ends, by the candidates in a row that it
discards. -/
theorem findprimeReturnsTheFirst : Obligations.FindprimeReturnsTheFirst := by
  unfold Obligations.FindprimeReturnsTheFirst
  refine ⟨decode_encode .findprime, fun s => ⟨fun hbad => ?_, fun hfit h20 hle h1 hseed => ?_⟩⟩
  · refine exec_findprime_of_not_legal fun ⟨hfit, h20, hle, h1, hseed⟩ => ?_
    rcases hbad with hbad | hbad | hbad | hbad | hbad
    · exact hbad hfit
    · omega
    · omega
    · omega
    · exact hbad hseed
  · have hexec := exec_findprime_of_legal ⟨hfit, h20, hle, h1, hseed⟩
    refine ⟨fun i g1 p g2 hi hd hf => ?_, fun g hd => ?_⟩
    · rw [hexec, searchPrime_of_first_found hi hd hf, State.afterSearch, Nat.add_comm]
    · rw [hexec, searchPrime_of_all_discarded hd, State.afterSearch]

/-- Settles O36: a search whose draws are all answered ends, and the acceptance checks prove what it found. -/
theorem findprimeOutputIsPrimeWithGeneratorTwo : Obligations.FindprimeOutputIsPrimeWithGeneratorTwo := by
  unfold Obligations.FindprimeOutputIsPrimeWithGeneratorTwo
  intro s hfit h20 hle h1 hseed hans
  have hexec := exec_findprime_of_legal ⟨hfit, h20, hle, h1, hseed⟩
  obtain ⟨e, g, hr, -⟩ := searchPrime_answered s.lMode s.lop.a.toNat s.lop.b.toNat 1 s.rng hans
  rw [hr] at hexec
  cases e with
  | found p i =>
    obtain ⟨⟨hp, hord⟩, hlo, hhi⟩ := searchPrime_found_prime hr
    obtain ⟨-, -, hi1, hiN⟩ := searchPrime_found hr
    exact .inl ⟨p, i, g, hexec, hp, hord, hlo, hhi, hi1, by omega⟩
  | exhausted => exact .inr ⟨g, hexec⟩

end Sys2Proof.Machine
end

section
/-! PROOFS. ENCRYPT and ENCRYPT_R: their checks in order, and the cipher block of the r they use (R180 to R185). -/

namespace Sys2Proof.Machine

/-! ### The cipher block -/

/-- The first part of the cipher block that the latched operands and an ephemeral give: c1 = g^r mod p (R180). -/
def State.c1 (s : State) (r : Nat) : Nat := s.lop.c.toNat ^ r % s.lop.b.toNat

/-- The second part of the cipher block: c2 = m (e2^r mod p) mod p (R180). -/
def State.c2 (s : State) (r : Nat) : Nat := s.lop.a.toNat * (s.lop.d.toNat ^ r % s.lop.b.toNat) % s.lop.b.toNat

theorem State.c1_lt {s : State} (h : 0 < s.lop.b.toNat) (r : Nat) : s.c1 r < s.lop.b.toNat := Nat.mod_lt _ h

theorem State.c2_lt {s : State} (h : 0 < s.lop.b.toNat) (r : Nat) : s.c2 r < s.lop.b.toNat := Nat.mod_lt _ h

/-- With an r of [1, p − 2] in L_R both encryptions complete with its cipher block, whatever the random-number state (R180). -/
theorem finishEncryption_of_ephemeral {s : State} {r : Nat} (g : Rng) (h3 : 3 ≤ s.lop.b.toNat) (hb : Fits s.lop.b)
    (hr : r ≤ s.lop.b.toNat - 2) : finishEncryption { s with rng := g, lR := BitVec.ofNat 33 r } =
      .next (State.finished { s with rng := g } (s.c1 r) (s.c2 r) 0) := by
  have hpow : ∀ x, modpow x r s.lop.b.toNat = x ^ r % s.lop.b.toNat := fun x =>
    modpow_eq_pow_mod x _ _ (by omega) (by omega)
  rw [finishEncryption_eq, ephemeral_toNat hr hb, hpow, hpow]
  rfl

/-! ### ENCRYPT -/

theorem encryptError_eq_invalidArgument {s : State}
    (h : ¬ OperandsFit .encrypt s ∨ s.lop.b.toNat < 3 ∨ ¬ SeedOk s) : encryptError s = some .invalidArgument := by
  simp only [encryptError]
  split
  · rfl
  · next hw =>
    split
    · rfl
    · next hp =>
      have hfit := (widthOk_iff .encrypt s).1 (Bool.of_not_eq_false hw)
      have hseed : ¬ SeedOk s := (h.resolve_left (not_not.2 hfit)).resolve_left hp
      exact if_pos (Bool.of_not_eq_false (mt (seedBad_eq_false_iff s).1 hseed))

theorem encryptError_eq_blockTooLarge {s : State} (hf : OperandsFit .encrypt s) (hp : 3 ≤ s.lop.b.toNat)
    (hs : SeedOk s) (hm : s.lop.b.toNat ≤ s.lop.a.toNat) : encryptError s = some .blockTooLarge := by
  simp only [encryptError, (widthOk_iff .encrypt s).2 hf, (seedBad_eq_false_iff s).2 hs]
  rw [if_neg (by decide), if_neg (by omega), if_neg (by decide), if_pos hm]

theorem exec_encrypt_of_error {s : State} {e : ErrorKind} (he : encryptError s = some e) :
    exec .encrypt s = .next (s.failed e) := by
  simp only [exec, execEncrypt, he, fail_eq]

/-- ENCRYPT whose checks pass completes with the cipher block of the r it draws (R180, R182). -/
theorem exec_encrypt_of_draw {s : State} {r : Nat} {g : Rng} (he : encryptError s = none) (h0 : s.lR = 0)
    (hd : draw s.lMode 1 (s.lop.b.toNat - 2) s.rng = some (r, g)) :
    exec .encrypt s = .next (State.finished { s with rng := g } (s.c1 r) (s.c2 r) 0) := by
  obtain ⟨⟨-, hb, -⟩, h3, -, -⟩ := encryptError_none he
  have hdrawn : drawEphemeral s = some { s with rng := g, lR := BitVec.ofNat 33 r } := by
    simp only [drawEphemeral, h0, hd, if_true]
  exact (execEncrypt_of_drawn he hdrawn).trans (finishEncryption_of_ephemeral g h3 hb (draw_mem (by omega) hd).2)

/-- Settles O37: the checks in their order, then the one draw, which lies in its range, and its cipher block. -/
theorem encryptResult : Obligations.EncryptResult := by
  unfold Obligations.EncryptResult
  refine ⟨decode_encode .encrypt, fun s => ⟨fun hbad => ?_, fun hf hp hs hm => ?_, fun hf hp hs hm => ⟨?_, ?_⟩⟩⟩
  · exact exec_encrypt_of_error (encryptError_eq_invalidArgument hbad)
  · exact exec_encrypt_of_error (encryptError_eq_blockTooLarge hf hp hs hm)
  · intro _ hans
    obtain ⟨r, g, hd, -⟩ := draw_answered s.lMode 1 (s.lop.b.toNat - 2) s.rng hans
    exact ⟨r, g, hd, draw_mem (by omega) hd⟩
  · exact fun h0 r g hd => exec_encrypt_of_draw (encryptError_eq_none hf hp hs hm) h0 hd

/-! ### ENCRYPT_R -/

theorem encryptRError_eq_invalidArgument {s : State} (h : ¬ OperandsFit .encryptR s ∨ s.lop.b.toNat < 3 ∨
    s.lop.e.toNat < 1 ∨ s.lop.b.toNat - 2 < s.lop.e.toNat) : encryptRError s = some .invalidArgument := by
  simp only [encryptRError]
  split
  · rfl
  · next hw =>
    split
    · rfl
    · next hp =>
      have hfit := (widthOk_iff .encryptR s).1 (Bool.of_not_eq_false hw)
      exact if_pos ((h.resolve_left (not_not.2 hfit)).resolve_left hp)

section
variable {s : State} (hf : OperandsFit .encryptR s) (hp : 3 ≤ s.lop.b.toNat) (h1 : 1 ≤ s.lop.e.toNat)
  (hr : s.lop.e.toNat ≤ s.lop.b.toNat - 2)
include hf hp h1 hr

/-- Behind the checks of its operands ENCRYPT_R compares the block with p (R104, R185). -/
theorem encryptRError_of_legal :
    encryptRError s = if s.lop.b.toNat ≤ s.lop.a.toNat then some .blockTooLarge else none := by
  simp only [encryptRError, (widthOk_iff .encryptR s).2 hf]
  rw [if_neg (by decide), if_neg (by omega), if_neg (by omega)]

theorem encryptRError_eq_blockTooLarge (hm : s.lop.b.toNat ≤ s.lop.a.toNat) :
    encryptRError s = some .blockTooLarge :=
  (encryptRError_of_legal hf hp h1 hr).trans (if_pos hm)

theorem encryptRError_eq_none (hm : s.lop.a.toNat < s.lop.b.toNat) : encryptRError s = none :=
  (encryptRError_of_legal hf hp h1 hr).trans (if_neg (by omega))

end

theorem exec_encryptR_of_error {s : State} {e : ErrorKind} (he : encryptRError s = some e) :
    exec .encryptR s = .next (s.failed e) := by
  simp only [exec, execEncryptR, he, fail_eq]

/-- ENCRYPT_R whose checks pass completes with the cipher block of the host's r (R185). -/
theorem exec_encryptR_of_no_error {s : State} (he : encryptRError s = none) :
    exec .encryptR s = .next (s.finished (s.c1 s.lop.e.toNat) (s.c2 s.lop.e.toNat) 0) := by
  obtain ⟨⟨-, hb, -⟩, h3, -, hr, -⟩ := encryptRError_none he
  simp only [exec, execEncryptR, he]
  exact finishEncryption_of_ephemeral s.rng h3 hb hr

/-- Settles O39: the checks in their order, then the cipher block of operand E. -/
theorem encryptRResult : Obligations.EncryptRResult := by
  unfold Obligations.EncryptRResult
  refine ⟨decode_encode .encryptR, fun s => ⟨fun hbad => ?_, fun hf hp h1 hr => ⟨fun hm => ?_, fun hm => ?_⟩⟩⟩
  · exact exec_encryptR_of_error (encryptRError_eq_invalidArgument hbad)
  · exact exec_encryptR_of_error (encryptRError_eq_blockTooLarge hf hp h1 hr hm)
  · exact exec_encryptR_of_no_error (encryptRError_eq_none hf hp h1 hr hm)

end Sys2Proof.Machine
end

section
/-! PROOFS. DECRYPT: its checks in order, and the block times the inverse of c1^d (R190). -/

namespace Sys2Proof.Machine

theorem exec_decrypt_of_not_legal {s : State} (h : ¬ OperandsFit .decrypt s ∨ s.lop.c.toNat < 3) :
    exec .decrypt s = .next (s.failed .invalidArgument) := by
  rw [← fail_eq]
  simp only [exec, execDecrypt]
  split
  · rfl
  · next hw =>
    have hfit := (widthOk_iff .decrypt s).1 (Bool.of_not_eq_false hw)
    exact if_pos (h.resolve_left (not_not.2 hfit))

section
variable {s : State} (hf : OperandsFit .decrypt s) (hp : 3 ≤ s.lop.c.toNat)
include hf hp

/-- DECRYPT behind the checks of its operands' widths and of p: the check of the cipher block, then of the inverse, then
the result (R190). -/
theorem exec_decrypt_of_legal : exec .decrypt s =
    if s.lop.a.toNat = 0 ∨ s.lop.c.toNat ≤ s.lop.a.toNat ∨ s.lop.c.toNat ≤ s.lop.b.toNat then
      .next (s.failed .invalidCipherBlock)
    else if Nat.gcd (s.lop.a.toNat ^ s.lop.d.toNat % s.lop.c.toNat) s.lop.c.toNat ≠ 1 then
      .next (s.failed .noInverseExists)
    else .next (s.finished
      (s.lop.b.toNat * modinv (s.lop.a.toNat ^ s.lop.d.toNat % s.lop.c.toNat) s.lop.c.toNat % s.lop.c.toNat) 0 0) := by
  have hw := (widthOk_iff .decrypt s).2 hf
  obtain ⟨-, -, -, hd⟩ := hf
  simp only [exec, execDecrypt, hw, finish_eq, fail_eq, modpow_eq_pow_mod _ _ _ (by omega : 2 ≤ s.lop.c.toNat) hd]
  rw [if_neg (by decide), if_neg (by omega)]

theorem exec_decrypt_of_invalid_block
    (h : s.lop.a.toNat = 0 ∨ s.lop.c.toNat ≤ s.lop.a.toNat ∨ s.lop.c.toNat ≤ s.lop.b.toNat) :
    exec .decrypt s = .next (s.failed .invalidCipherBlock) :=
  (exec_decrypt_of_legal hf hp).trans (if_pos h)

variable (h1 : 1 ≤ s.lop.a.toNat) (ha : s.lop.a.toNat < s.lop.c.toNat) (hb : s.lop.b.toNat < s.lop.c.toNat)
include h1 ha hb

theorem exec_decrypt_of_gcd_ne_one
    (hg : Nat.gcd (s.lop.a.toNat ^ s.lop.d.toNat % s.lop.c.toNat) s.lop.c.toNat ≠ 1) :
    exec .decrypt s = .next (s.failed .noInverseExists) := by
  rw [exec_decrypt_of_legal hf hp, if_neg (by omega), if_pos hg]

/-- DECRYPT of a valid cipher block multiplies c2 by the inverse of c1^d mod p (R151, R190). -/
theorem exec_decrypt_of_gcd_eq_one
    (hg : Nat.gcd (s.lop.a.toNat ^ s.lop.d.toNat % s.lop.c.toNat) s.lop.c.toNat = 1) :
    ∃ sInv, 1 ≤ sInv ∧ sInv ≤ s.lop.c.toNat - 1 ∧
      s.lop.a.toNat ^ s.lop.d.toNat % s.lop.c.toNat * sInv % s.lop.c.toNat = 1 ∧
      exec .decrypt s = .next (s.finished (s.lop.b.toNat * sInv % s.lop.c.toNat) 0 0) := by
  have hexec := exec_decrypt_of_legal hf hp
  rw [if_neg (by omega), if_neg (not_not.2 hg)] at hexec
  obtain ⟨-, -, hc, -⟩ := hf
  obtain ⟨hpos, hlt, hinv⟩ := modinv_spec _ _ (by omega) hc (Nat.mod_lt _ (by omega)) hg
  exact ⟨_, hpos, by omega, hinv, hexec⟩

end

/-- Settles O40: the checks in their order, then the inverse unit's result. -/
theorem decryptResult : Obligations.DecryptResult := by
  unfold Obligations.DecryptResult
  exact ⟨decode_encode .decrypt, fun s => ⟨exec_decrypt_of_not_legal, fun hf hp =>
    ⟨exec_decrypt_of_invalid_block hf hp, fun h1 ha hb =>
      ⟨exec_decrypt_of_gcd_ne_one hf hp h1 ha hb, exec_decrypt_of_gcd_eq_one hf hp h1 ha hb⟩⟩⟩⟩

end Sys2Proof.Machine
end

section
/-! PROOFS. The block cipher as a whole: decryption undoes encryption (R195), and under a primitive root different
ephemerals give different cipher blocks (R198). -/

namespace Sys2Proof.Machine

/-! ### Decryption undoes encryption -/

/-- Powers modulo p of a number prime to p are prime to p. -/
theorem coprime_pow_mod {a p : Nat} (h : Nat.Coprime a p) (k : Nat) : Nat.Coprime (a ^ k % p) p :=
  (Nat.mod_modEq _ _).gcd_eq.trans (h.pow_left k)

/-- ElGamal's identity: with e2 = g^d, any x inverse to c1^d cancels the mask e2^r, as both are g^(d r) modulo p. -/
theorem cipher_mul_inverse {p g d r m x : Nat} (hm : m < p) (hx : (g ^ r % p) ^ d % p * x % p = 1 % p) :
    m * ((g ^ d % p) ^ r % p) % p * x % p = m := by
  have hmask : (g ^ d % p) ^ r ≡ (g ^ r % p) ^ d [MOD p] := calc
    (g ^ d % p) ^ r ≡ (g ^ d) ^ r [MOD p] := (Nat.mod_modEq _ _).pow r
    _ = (g ^ r) ^ d := pow_right_comm g d r
    _ ≡ (g ^ r % p) ^ d [MOD p] := ((Nat.mod_modEq _ _).pow d).symm
  have hcancel : m * ((g ^ d % p) ^ r % p) % p * x ≡ m [MOD p] := calc
    m * ((g ^ d % p) ^ r % p) % p * x ≡ m * ((g ^ d % p) ^ r % p) * x [MOD p] := (Nat.mod_modEq _ _).mul_right x
    _ = m * ((g ^ d % p) ^ r % p * x) := mul_assoc _ _ _
    _ = m * ((g ^ r % p) ^ d % p * x) := by rw [hmask]
    _ ≡ m * 1 [MOD p] := Nat.ModEq.mul_left m hx
    _ = m := mul_one m
  exact Nat.mod_eq_of_modEq hcancel hm

/-- An encryption s and a decryption u under one key pair: a prime p, a base g that p does not divide, the secret d in u and
e2 = g^d mod p in s, with a block below p (R195). -/
structure OneKey (s u : State) : Prop where
  prime : s.lop.b.toNat.Prime
  three_le : 3 ≤ s.lop.b.toNat
  modulus_fits : Fits s.lop.b
  base_fits : Fits s.lop.c
  base_ne_zero : s.lop.c.toNat % s.lop.b.toNat ≠ 0
  secret_fits : Fits u.lop.d
  public_eq : s.lop.d.toNat = s.lop.c.toNat ^ u.lop.d.toNat % s.lop.b.toNat
  block_lt : s.lop.a.toNat < s.lop.b.toNat
  same_modulus : u.lop.c.toNat = s.lop.b.toNat

section
variable {s u : State} (h : OneKey s u)
include h

theorem OneKey.encrypt_fits : OperandsFit .encrypt s := by
  obtain ⟨-, -, hp, hg, -, -, he2, hm, -⟩ := h
  have hlt : s.lop.d.toNat < s.lop.b.toNat := he2 ▸ Nat.mod_lt _ (by omega)
  exact ⟨hm.trans hp, hp, hg, hlt.trans hp⟩

theorem OneKey.encryptR_fits (hr : s.lop.e.toNat ≤ s.lop.b.toNat - 2) : OperandsFit .encryptR s := by
  obtain ⟨ha, hb, hc, hd⟩ := h.encrypt_fits
  exact ⟨ha, hb, hc, hd, show s.lop.e.toNat < 2 ^ 33 by omega⟩

/-- g^r mod p is prime to p (R195). -/
theorem OneKey.c1_coprime (r : Nat) : Nat.Coprime (s.c1 r) s.lop.b.toNat := by
  have hdvd : ¬ s.lop.b.toNat ∣ s.lop.c.toNat := fun hd => h.base_ne_zero (Nat.mod_eq_zero_of_dvd hd)
  exact coprime_pow_mod ((Nat.Prime.coprime_iff_not_dvd h.prime).2 hdvd).symm r

theorem OneKey.c1_pos (r : Nat) : 1 ≤ s.c1 r :=
  Nat.pos_of_ne_zero fun h0 => h.prime.ne_one (by simpa [h0] using h.c1_coprime r)

/-- DECRYPT of the cipher block of any r gives the block that was encrypted (R195). -/
theorem OneKey.exec_decrypt {r : Nat} (h1 : u.lop.a.toNat = s.c1 r) (h2 : u.lop.b.toNat = s.c2 r) :
    exec .decrypt u = .next (u.finished s.lop.a.toNat 0 0) := by
  have hp := h.same_modulus
  have hc1 := State.c1_lt h.prime.pos r
  have hc2 := State.c2_lt h.prime.pos r
  have hpfit : s.lop.b.toNat < 2 ^ 33 := h.modulus_fits
  have hfit : OperandsFit .decrypt u :=
    ⟨show u.lop.a.toNat < 2 ^ 33 by omega, show u.lop.b.toNat < 2 ^ 33 by omega,
      show u.lop.c.toNat < 2 ^ 33 by omega, h.secret_fits⟩
  have hgcd : Nat.gcd (u.lop.a.toNat ^ u.lop.d.toNat % u.lop.c.toNat) u.lop.c.toNat = 1 := by
    rw [h1, hp]
    exact coprime_pow_mod (h.c1_coprime r) _
  obtain ⟨x, -, -, hx, hexec⟩ := exec_decrypt_of_gcd_eq_one hfit (hp ▸ h.three_le) (h1 ▸ h.c1_pos r) (by omega)
    (by omega) hgcd
  rw [h1, hp, ← Nat.mod_eq_of_lt h.prime.one_lt] at hx
  rw [hexec, h2, hp, State.c2, h.public_eq, cipher_mul_inverse h.block_lt hx]

end

/-- Settles O41: both encryptions complete with the cipher block of their r, and DECRYPT undoes it for every r. -/
theorem encryptionRoundTrip : Obligations.EncryptionRoundTrip := by
  unfold Obligations.EncryptionRoundTrip
  rintro p g d e2 m hprime h3 hp33 hg33 hg hd33 he2 hm s u rfl rfl rfl rfl hup rfl
  have h : OneKey s u := ⟨hprime, h3, hp33, hg33, hg, hd33, he2, hm, hup⟩
  refine ⟨fun h1 hr => ?_, fun hs hans h0 => ?_⟩
  · have hexec := exec_encryptR_of_no_error (encryptRError_eq_none (h.encryptR_fits hr) h3 h1 hr hm)
    exact ⟨_, _, State.c1_lt hprime.pos _, State.c2_lt hprime.pos _, hexec, h.exec_decrypt⟩
  · obtain ⟨r, g', hd, -⟩ := draw_answered s.lMode 1 (s.lop.b.toNat - 2) s.rng hans
    have hexec := exec_encrypt_of_draw (encryptError_eq_none h.encrypt_fits h3 hs hm) h0 hd
    exact ⟨_, _, g', State.c1_lt hprime.pos r, State.c2_lt hprime.pos r, hexec, h.exec_decrypt⟩

/-! ### Different ephemerals, different cipher blocks -/

/-- ENCRYPT that ends without an error has passed its checks (R206). -/
theorem encryptError_of_next {s t : State} (h : exec .encrypt s = .next t) (ht : t.errcode = none) :
    encryptError s = none := by
  cases he : encryptError s with
  | none => rfl
  | some e =>
    rw [exec_encrypt_of_error he] at h
    cases h
    cases ht

/-- ENCRYPT_R that ends without an error has passed its checks (R206). -/
theorem encryptRError_of_next {s t : State} (h : exec .encryptR s = .next t) (ht : t.errcode = none) :
    encryptRError s = none := by
  cases he : encryptRError s with
  | none => rfl
  | some e =>
    rw [exec_encryptR_of_error he] at h
    cases h
    cases ht

/-- RES0 of an ENCRYPT without an error is the first part of its draw's cipher block (R180). -/
theorem res0_of_encrypt {s t : State} {r : Nat} {g : Rng} (h0 : s.lR = 0)
    (hd : draw s.lMode 1 (s.lop.b.toNat - 2) s.rng = some (r, g)) (h : exec .encrypt s = .next t)
    (ht : t.errcode = none) : r < s.lop.b.toNat - 1 ∧ t.res0 = BitVec.ofNat 64 (s.c1 r) := by
  have he := encryptError_of_next h ht
  obtain ⟨-, h3, -, -⟩ := encryptError_none he
  have hr := (draw_mem (by omega) hd).2
  rw [exec_encrypt_of_draw he h0 hd] at h
  cases h
  exact ⟨by omega, rfl⟩

/-- RES0 of an ENCRYPT_R without an error is the first part of its operand r's cipher block (R185). -/
theorem res0_of_encryptR {s t : State} (h : exec .encryptR s = .next t) (ht : t.errcode = none) :
    s.lop.e.toNat < s.lop.b.toNat - 1 ∧ t.res0 = BitVec.ofNat 64 (s.c1 s.lop.e.toNat) := by
  have he := encryptRError_of_next h ht
  obtain ⟨-, h3, -, hr, -⟩ := encryptRError_none he
  rw [exec_encryptR_of_no_error he] at h
  cases h
  exact ⟨by omega, rfl⟩

/-- The powers of g below its order are different modulo p, and as result words (R198). -/
theorem c1_word_ne {s u : State} {r r' : Nat} (hp : s.lop.b.toNat.Prime)
    (hord : orderOf (s.lop.c.toNat : ZMod s.lop.b.toNat) = s.lop.b.toNat - 1) (hb : u.lop.b = s.lop.b)
    (hc : u.lop.c = s.lop.c) (hr : r < s.lop.b.toNat - 1) (hr' : r' < s.lop.b.toNat - 1) (hne : r ≠ r') :
    BitVec.ofNat 64 (s.c1 r) ≠ BitVec.ofNat 64 (u.c1 r') := by
  have hword : ∀ k, (BitVec.ofNat 64 (s.c1 k)).toNat = s.c1 k := fun k => by
    rw [BitVec.toNat_ofNat, Nat.mod_eq_of_lt ((State.c1_lt hp.pos k).trans s.lop.b.isLt)]
  have hu : u.c1 r' = s.c1 r' := by rw [State.c1, State.c1, hb, hc]
  intro h
  have hmod : s.c1 r = s.c1 r' := by rw [← hword r, h, hu, hword]
  have hpow : (s.lop.c.toNat : ZMod s.lop.b.toNat) ^ r = (s.lop.c.toNat : ZMod s.lop.b.toNat) ^ r' := by
    exact_mod_cast (ZMod.natCast_eq_natCast_iff' _ _ _).2 hmod
  exact hne (pow_injOn_Iio_orderOf (hord ▸ hr) (hord ▸ hr') hpow)

/-- Settles O42: RES0 is the power of g by the r in use, and the powers below the order of g are different. -/
theorem differentEphemeralsDifferentCiphers : Obligations.DifferentEphemeralsDifferentCiphers := by
  unfold Obligations.DifferentEphemeralsDifferentCiphers
  refine fun s u hp hord hb hc => ⟨fun h0 h0' r r' g g' hd hd' hne t v h h' ht hv => ?_,
    fun hne t v h h' ht hv => ?_⟩
  · obtain ⟨hr, hres⟩ := res0_of_encrypt h0 hd h ht
    obtain ⟨hr', hres'⟩ := res0_of_encrypt h0' hd' h' hv
    rw [hres, hres']
    exact c1_word_ne hp hord hb hc hr (hb ▸ hr') hne
  · obtain ⟨hr, hres⟩ := res0_of_encryptR h ht
    obtain ⟨hr', hres'⟩ := res0_of_encryptR h' hv
    rw [hres, hres']
    exact c1_word_ne hp hord hb hc hr (hb ▸ hr') fun he => hne (BitVec.eq_of_toNat_eq he.symm)

end Sys2Proof.Machine
end

section
/-! PROOFS. Completion as one step, and the error codes of each command (R201, R205, R206). -/

namespace Sys2Proof.Machine

/-! ### What completion writes -/

/-- A command that goes on has finished with results or failed with one of its errors, and beside that only the
random-number state may differ (R201, R205, R206). -/
theorem exec_next {i : Instr} {s t : State} (h : exec i s = .next t) :
    (∃ r0 r1 r2, t = State.finished { s with rng := t.rng } r0 r1 r2) ∨
      ∃ e ∈ possibleErrors i, t = State.failed { s with rng := t.rng } e := by
  have hends := exec_ends i s (fun _ => True) (fun _ _ _ _ _ _ _ => trivial) trivial
  rw [h] at hends
  obtain ⟨-, ⟨r0, r1, r2, -, -, -, ht⟩ | hfailed⟩ := hends.next
  · exact .inl ⟨r0, r1, r2, ht⟩
  · exact .inr hfailed

/-- Settles O21: the two ways in which a command goes on are the two states of the statement. -/
theorem completionIsOneAtomicStep : Obligations.CompletionIsOneAtomicStep := by
  unfold Obligations.CompletionIsOneAtomicStep
  intro i s t h
  obtain ⟨r0, r1, r2, ht⟩ | ⟨e, -, ht⟩ := exec_next h
  · exact .inl ⟨_, _, _, ht⟩
  · exact .inr ⟨e, ht⟩

/-! ### The error codes a command can end with -/

/-- Some state makes the command end with the error. -/
def CanFail (i : Instr) (e : ErrorKind) : Prop := ∃ s t, exec i s = .next t ∧ t.errcode = some e

theorem CanFail.of_failed {i : Instr} {e : ErrorKind} {s : State} (h : exec i s = .next (s.failed e)) : CanFail i e :=
  ⟨s, _, h, rfl⟩

/-- A command ends with no error that the table does not give it (R201). -/
theorem CanFail.possible {i : Instr} {e : ErrorKind} (h : CanFail i e) : e ∈ possibleErrors i := by
  obtain ⟨s, t, hexec, he⟩ := h
  obtain ⟨r0, r1, r2, ht⟩ | ⟨e', he', ht⟩ := exec_next hexec
  · rw [ht] at he
    cases he
  · rw [ht] at he
    obtain rfl : e' = e := Option.some.inj he
    exact he'

/-- An operand that is too wide is an invalid argument to every command that reads it (R91, R104 step 2). -/
theorem exec_of_not_operandsFit {i : Instr} {s : State} (h : ¬ OperandsFit i s) :
    exec i s = .next (s.failed .invalidArgument) := by
  cases i with
  | modpow => exact exec_modpow_of_not_legal (.inl h)
  | modinv => exact exec_modinv_of_not_legal (.inl h)
  | mrtest => exact exec_mrtest_of_not_legal fun hl => h hl.fit
  | mrround => exact exec_mrround_of_not_legal fun hl => h hl.fit
  | findprime => exact exec_findprime_of_not_legal fun hl => h hl.fit
  | encrypt => exact exec_encrypt_of_error (encryptError_eq_invalidArgument (.inl h))
  | encryptR => exact exec_encryptR_of_error (encryptRError_eq_invalidArgument (.inl h))
  | decrypt => exact exec_decrypt_of_not_legal (.inl h)

/-- The reset state with latched operands and entropy answers to come. -/
def latchedState (lop : Operands) (answers : List (Option Nat)) : State :=
  { State.reset with lop := lop, rng := ⟨0, answers, 0⟩ }

/-- Operand A, which every command reads, is 2^33. -/
theorem canFail_invalidArgument (i : Instr) : CanFail i .invalidArgument := by
  refine .of_failed (s := latchedState ⟨0x200000000, 0, 0, 0, 0⟩ []) (exec_of_not_operandsFit ?_)
  rw [← widthOk_iff]
  cases i <;> decide

/-- 2 has no inverse modulo 4. -/
theorem modinv_canFail_noInverseExists : CanFail .modinv .noInverseExists := by
  refine .of_failed (s := latchedState ⟨2, 4, 0, 0, 0⟩ []) ?_
  rw [exec_modinv_of_legal ((widthOk_iff .modinv _).1 (by decide)) (by decide)]
  exact if_pos (by decide)

/-- The block 3 is not below p = 3. -/
theorem encrypt_canFail_blockTooLarge : CanFail .encrypt .blockTooLarge :=
  .of_failed (s := latchedState ⟨3, 3, 0, 0, 0⟩ []) <| exec_encrypt_of_error <|
    encryptError_eq_blockTooLarge ((widthOk_iff .encrypt _).1 (by decide)) (by decide)
      ((seedBad_eq_false_iff _).1 (by decide)) (by decide)

/-- The block 3 is not below p = 3, with the r = 1 that p admits. -/
theorem encryptR_canFail_blockTooLarge : CanFail .encryptR .blockTooLarge :=
  .of_failed (s := latchedState ⟨3, 3, 0, 0, 1⟩ []) <| exec_encryptR_of_error <|
    encryptRError_eq_blockTooLarge ((widthOk_iff .encryptR _).1 (by decide)) (by decide) (by decide) (by decide)
      (by decide)

/-- The first part of the cipher block is 0. -/
theorem decrypt_canFail_invalidCipherBlock : CanFail .decrypt .invalidCipherBlock :=
  .of_failed (s := latchedState ⟨0, 0, 3, 0, 0⟩ []) <|
    exec_decrypt_of_invalid_block ((widthOk_iff .decrypt _).1 (by decide)) (by decide) (.inl (by decide))

/-- With p = 4, which is no prime, c1 = 2 and d = 1 the power c1^d = 2 has no inverse. -/
theorem decrypt_canFail_noInverseExists : CanFail .decrypt .noInverseExists :=
  .of_failed (s := latchedState ⟨2, 0, 4, 1, 0⟩ []) <|
    exec_decrypt_of_gcd_ne_one ((widthOk_iff .decrypt _).1 (by decide)) (by decide) (by decide) (by decide) (by decide)
      (by decide)

/-- The candidate 2^32 + 1 = 641 · 6700417 of the draw 0 is discarded on base 3 (R121, R161). -/
theorem candidateDiscarded_fermat (k : Nat) (hk : 0 < k) :
    CandidateDiscarded .entropy k ⟨0, [some 0, some 3], 0⟩ ⟨0, [], 0⟩ := by
  have hbase : ¬ StrongPass (2 ^ 32 + 2 * 0 + 1) 3 := by
    rw [← mrRound_iff _ _ (by decide) (by decide) (by decide)]
    decide
  exact ⟨0, ⟨0, [some 3], 0⟩, by decide,
    .inl ⟨[], 3, .cons (g1 := ⟨0, [], 0⟩) (by decide) (.nil _), hk, by simp, hbase⟩⟩

/-- A search with N = 1 whose one candidate is discarded (R166). -/
theorem findprime_canFail_generationFailed : CanFail .findprime .generationFailed := by
  have hlegal : FindprimeLegal (latchedState ⟨20, 1, 0, 0, 0⟩ [some 0, some 3]) :=
    { fit := (widthOk_iff .findprime _).1 (by decide)
      twenty_le := by decide
      le := by decide
      one_le := by decide
      seed := (seedBad_eq_false_iff _).1 (by decide) }
  have hsearch := searchPrime_of_all_discarded (.succ (.zero _) (candidateDiscarded_fermat 20 (by decide))) 1
  exact ⟨_, _, (exec_findprime_of_legal hlegal).trans (congrArg (State.afterSearch _) hsearch), rfl⟩

/-- A command can end with every error that the table gives it (R201). -/
theorem canFail_of_possible (i : Instr) : ∀ e ∈ possibleErrors i, CanFail i e := by
  have hArg := canFail_invalidArgument i
  cases i with
  | modpow | mrtest | mrround => simpa [possibleErrors] using hArg
  | modinv => simpa [possibleErrors] using ⟨hArg, modinv_canFail_noInverseExists⟩
  | findprime => simpa [possibleErrors] using ⟨hArg, findprime_canFail_generationFailed⟩
  | encrypt => simpa [possibleErrors] using ⟨hArg, encrypt_canFail_blockTooLarge⟩
  | encryptR => simpa [possibleErrors] using ⟨hArg, encryptR_canFail_blockTooLarge⟩
  | decrypt =>
    simpa [possibleErrors] using ⟨hArg, decrypt_canFail_noInverseExists, decrypt_canFail_invalidCipherBlock⟩

theorem runCommand_of_illegal {s : State} (hw : IllegalWord s.lastCmd) :
    runCommand s = .next (s.failed .illegalCommand) := by
  cases hd : decode s.lastCmd with
  | ok i => exact absurd ⟨i, hd⟩ ((illegalWord_iff _).1 hw)
  | error e => simp only [runCommand, hd, fail_eq]

/-- Settles O22: the table gives a command the errors it can end with, each shown by a state, and no others. -/
theorem errorCodesOfEachCommand : Obligations.ErrorCodesOfEachCommand := by
  unfold Obligations.ErrorCodesOfEachCommand
  exact ⟨fun i e => ⟨CanFail.possible, canFail_of_possible i e⟩,
    fun s hw => ⟨_, runCommand_of_illegal hw, rfl⟩⟩

end Sys2Proof.Machine
end

section
/-! PROOFS. What sets and what clears OVR (R34, R38, R41, R214). -/

namespace Sys2Proof.Machine

/-- A write to CMD or PRNG_STATE that the running command makes the core drop is next (R38, R41). -/
def State.droppedWriteIsNext (s : State) : Prop := s.seq = .busy ∧ ∃ x rest,
  s.inputs = .access ⟨.w64, 0x20, .write x⟩ :: rest ∨ s.inputs = .access ⟨.w64, 0x28, .write x⟩ :: rest

/-- A write of 1 to STATUS bit 3, or the reset input, is next (R34, R230). -/
def State.overrunClearIsNext (s : State) : Prop :=
  (∃ x rest, s.inputs = .access ⟨.w64, 0x10, .write x⟩ :: rest ∧ x.getLsbD 3 = true) ∨ s.resetIsNext

/-- A step that writes PRNG_STATE when busy is dropped (R41). -/
theorem step_of_prngWrite_busy {s : State} {v : Word} {rest : List Event} (hs : s.seq = .busy)
    (hi : s.inputs = .access (writeOf .prngState v) :: rest) :
    step s = .next (State.overrun { s with inputs := rest }) :=
  (step_of_write hi).trans (congrArg _ (writePrng_of_busy v hs))

/-- What a host write does to OVR: a dropped write sets it, a write to STATUS can clear it, and no other touches it. -/
theorem hostWrite_ovr (r : Reg) (v : Word) (s : State) :
    (s.seq = .busy ∧ (r = .cmd ∨ r = .prngState) ∧ (hostWrite r v s).ovr = true) ∨
    (r = .status ∧ (hostWrite r v s).ovr = (s.ovr && !v.getLsbD 3)) ∨
    (r ≠ .status ∧ (hostWrite r v s).ovr = s.ovr) := by
  cases r with
  | status => exact .inr (.inl ⟨rfl, rfl⟩)
  | cmd | prngState => cases hs : s.seq <;> simp [hostWrite, hs]
  | _ => exact .inr (.inr ⟨nofun, rfl⟩)

/-- Completion leaves OVR as it is (R205, R206). -/
theorem runCommand_ovr {s t : State} (h : runCommand s = .next t) : t.ovr = s.ovr := by
  obtain ⟨r0, r1, r2, -, -, -, ht⟩ | ⟨e, ht⟩ := runCommand_next h <;> rw [ht] <;> rfl

/-- Of the host's writes exactly one of 1 to STATUS bit 3 clears OVR (R34, R214). -/
theorem overrunClearIsNext_of_write {s : State} {r : Reg} {v : Word} {rest : List Event}
    (hi : s.inputs = .access (writeOf r v) :: rest) :
    s.overrunClearIsNext ↔ r = .status ∧ v.getLsbD 3 = true := by
  constructor
  · rintro (⟨x, rest', hi', hx⟩ | ⟨rest', hi'⟩)
    · have ha : writeOf r v = writeOf .status x := Event.access.inj (List.cons.inj (hi.symm.trans hi')).1
      obtain rfl : v = x := AccessKind.write.inj (congrArg Access.kind ha)
      exact ⟨slot_of_writeOf_eq ha, hx⟩
    · cases hi.symm.trans hi'
  · rintro ⟨rfl, hv⟩
    exact .inl ⟨v, rest, hi, hv⟩

theorem State.sequencerIsNext.not_overrunClear {s : State} (h : s.sequencerIsNext) : ¬ s.overrunClearIsNext := by
  rintro (⟨x, rest, hi, -⟩ | hr)
  · rcases h with h | ⟨rest', h⟩ <;> cases h.symm.trans hi
  · exact h.excludes.2 hr

/-- What a step does to OVR. -/
inductive StepOverrun (s t : State) : Prop where
  | dropped (hd : s.droppedWriteIsNext) (hc : ¬ s.overrunClearIsNext) (ht : t.ovr = true)
  | cleared (hc : s.overrunClearIsNext) (ht : t.ovr = false)
  | kept (hc : ¬ s.overrunClearIsNext) (ht : t.ovr = s.ovr)

theorem stepOverrun_of_write {s : State} {r : Reg} {v : Word} {rest : List Event}
    (hi : s.inputs = .access (writeOf r v) :: rest) : StepOverrun s (hostWrite r v { s with inputs := rest }) := by
  have hclear := overrunClearIsNext_of_write hi
  obtain ⟨hs, hr, ht⟩ | ⟨rfl, ht⟩ | ⟨hr, ht⟩ := hostWrite_ovr r v { s with inputs := rest }
  · rcases hr with rfl | rfl
    · exact .dropped ⟨hs, v, rest, .inl hi⟩ (by simp [hclear]) ht
    · exact .dropped ⟨hs, v, rest, .inr hi⟩ (by simp [hclear]) ht
  · cases hv : v.getLsbD 3 with
    | true => exact .cleared (hclear.2 ⟨rfl, hv⟩) (by rw [ht, hv, Bool.not_true, Bool.and_false])
    | false =>
      exact .kept (fun h => Bool.eq_false_iff.1 hv (hclear.1 h).2) (by rw [ht, hv, Bool.not_false, Bool.and_true])
  · exact .kept (fun h => hr (hclear.1 h).1) ht

theorem step_overrun {s t : State} (h : step s = .next t) : StepOverrun s t := by
  cases step_takes h with
  | idleTurn hi _ ht => subst ht; exact .kept (State.sequencerIsNext.not_overrunClear hi) rfl
  | completion hi _ ht => exact .kept (State.sequencerIsNext.not_overrunClear hi) (runCommand_ovr ht :)
  | reset rest hi ht => subst ht; exact .cleared (.inr ⟨rest, hi⟩) rfl
  | latchR rest hi ht =>
    rw [latchEphemeral_frame] at ht
    subst ht
    exact .kept (by simp [State.overrunClearIsNext, State.resetIsNext, hi]) rfl
  | access a rest hi ht =>
    obtain ⟨r, ⟨rfl, rfl⟩ | ⟨v, rfl, rfl⟩⟩ := hostAccess_next_slot ht
    · exact .kept (by simp [State.overrunClearIsNext, State.resetIsNext, hi, readOf]) rfl
    · exact stepOverrun_of_write hi

/-- Settles O24, by what the step does to OVR; a dropped write is the overrun alone. -/
theorem overrunIsSticky : Obligations.OverrunIsSticky := by
  unfold Obligations.OverrunIsSticky
  intro s t h
  change _ ∧ (s.ovr = false → t.ovr = true → s.droppedWriteIsNext) ∧
    (s.ovr = true → (t.ovr = false ↔ s.overrunClearIsNext))
  refine ⟨fun hs x rest hi => ?_, ?_⟩
  · rcases hi with hi | hi
    · exact Host.Outcome.next.inj (h.symm.trans (step_of_cmdWrite_busy hs hi))
    · exact Host.Outcome.next.inj (h.symm.trans (step_of_prngWrite_busy hs hi))
  · cases step_overrun h with
    | dropped hd hc ht => simp [hd, hc, ht]
    | cleared hc ht => simp [hc, ht]
    | kept hc ht => simp +contextual [hc, ht]

end Sys2Proof.Machine
end

section
/-! PROOFS. The reset input (R55, R230). -/

namespace Sys2Proof.Machine

/-- Settles O17: the reset input is a move that any state takes, and the state it leaves is `resetCore`, which mentions
neither SEQ nor the running command. -/
theorem resetInputAbandonsTheCommand : Obligations.ResetInputAbandonsTheCommand := by
  unfold Obligations.ResetInputAbandonsTheCommand
  exact fun s rest hi => step_of_move hi

end Sys2Proof.Machine
end

section
/-! PROOFS. What stops a command: only an unanswered draw in entropy mode, and every such draw that it reaches (R51,
R120, R160, R180, R245; log entry 3). -/

namespace Sys2Proof.Machine

/-! ### Only a draw in entropy mode can be unanswered -/

/-- Deterministic draws are computed, so a draw without an answer is one in entropy mode (R50, R51). -/
theorem mode_of_draw_none {mode : RngMode} {lo hi : Nat} {g : Rng} (h : draw mode lo hi g = none) :
    mode = .entropy := by
  cases mode with
  | entropy => rfl
  | deterministic => cases h

theorem mode_of_mrRounds_none {mode : RngMode} {n k j : Nat} {g : Rng} (h : mrRounds mode n k j g = none) :
    mode = .entropy := by
  induction k generalizing j g with
  | zero => cases h
  | succ k ih =>
    rw [mrRounds] at h
    split at h
    · next hd => exact mode_of_draw_none hd
    · split at h
      · exact ih h
      · cases h

theorem mode_of_searchPrime_none {mode : RngMode} {k left i : Nat} {g : Rng} (h : searchPrime mode k left i g = none) :
    mode = .entropy := by
  induction left generalizing i g with
  | zero => cases h
  | succ left ih =>
    rw [searchPrime] at h
    split at h
    · next hd => exact mode_of_draw_none hd
    · split at h
      · next hr => exact mode_of_mrRounds_none hr
      · exact ih h
      · split at h
        · cases h
        · exact ih h

theorem mode_of_drawEphemeral_none {s : State} (h : drawEphemeral s = none) : s.lMode = .entropy := by
  simp only [drawEphemeral] at h
  split at h
  · split at h
    · next hd => exact mode_of_draw_none hd
    · cases h
  · cases h

/-! ### What a fault of a command says -/

theorem eq_none_of_afterRounds_fault {s : State} {o : Option (RoundsEnd × Rng)} {f : Fault}
    (h : s.afterRounds o = .fault f) : o = none := by
  rcases o with _ | ⟨_ | _, g⟩
  · rfl
  · cases h
  · cases h

theorem eq_none_of_afterSearch_fault {s : State} {o : Option (SearchEnd × Rng)} {f : Fault}
    (h : s.afterSearch o = .fault f) : o = none := by
  rcases o with _ | ⟨_ | _, g⟩
  · rfl
  · cases h
  · cases h

theorem mode_of_mrtest_fault {s : State} {f : Fault} (h : exec .mrtest s = .fault f) : s.lMode = .entropy := by
  by_cases hl : MrtestLegal s
  · rw [exec_mrtest_of_legal hl] at h
    iterate 3 (split at h; · cases h)
    exact mode_of_mrRounds_none (eq_none_of_afterRounds_fault h)
  · rw [exec_mrtest_of_not_legal hl] at h
    cases h

theorem mode_of_findprime_fault {s : State} {f : Fault} (h : exec .findprime s = .fault f) : s.lMode = .entropy := by
  by_cases hl : FindprimeLegal s
  · rw [exec_findprime_of_legal hl] at h
    exact mode_of_searchPrime_none (eq_none_of_afterSearch_fault h)
  · rw [exec_findprime_of_not_legal hl] at h
    cases h

theorem mode_of_encrypt_fault {s : State} {f : Fault} (h : exec .encrypt s = .fault f) : s.lMode = .entropy := by
  cases he : encryptError s with
  | some e => rw [exec_encrypt_of_error he] at h; cases h
  | none =>
    cases hd : drawEphemeral s with
    | none => exact mode_of_drawEphemeral_none hd
    | some s1 => rw [exec, execEncrypt_of_drawn he hd, finishEncryption_eq] at h; cases h

/-- A command that never draws always completes, so it never faults (R53, R101). -/
theorem exec_ne_fault_of_never_draws {i : Instr} {s : State} {f : Fault}
    (hi : i = .modpow ∨ i = .modinv ∨ i = .mrround ∨ i = .encryptR ∨ i = .decrypt) : exec i s ≠ .fault f := by
  obtain ⟨t, ht, -⟩ := exec_of_never_draws hi s s.rng
  rw [ht]
  exact nofun

/-- A command that faults is one of the three that draw, in entropy mode (R51, R245). -/
theorem mode_of_exec_fault {i : Instr} {s : State} {f : Fault} (h : exec i s = .fault f) :
    s.lMode = .entropy ∧ (i = .mrtest ∨ i = .findprime ∨ i = .encrypt) := by
  cases i with
  | mrtest => exact ⟨mode_of_mrtest_fault h, .inl rfl⟩
  | findprime => exact ⟨mode_of_findprime_fault h, .inr (.inl rfl)⟩
  | encrypt => exact ⟨mode_of_encrypt_fault h, .inr (.inr rfl)⟩
  | _ => exact absurd h (exec_ne_fault_of_never_draws (by simp))

/-- The one fault of a command, and the listed answer that never comes (log entry 3). -/
theorem exec_fault {i : Instr} {s : State} {f : Fault} (h : exec i s = .fault f) :
    f = .entropyNeverAnswers ∧ none ∈ s.rng.answers := by
  have hends := exec_ends i s (fun _ => True) (fun _ _ _ _ _ _ _ => trivial) trivial
  rw [h] at hends
  cases hends with
  | stuck hn => exact ⟨rfl, hn⟩

theorem exec_not_refused (i : Instr) (s : State) (r : Refusal) : exec i s ≠ .refused r := by
  intro h
  have hends := exec_ends i s (fun _ => True) (fun _ _ _ _ _ _ _ => trivial) trivial
  rw [h] at hends
  cases hends

/-! ### The unanswered draw that a command reaches -/

/-- The seed check passes in entropy mode (R53). -/
theorem seedOk_of_entropy {s : State} (h : s.lMode = .entropy) : SeedOk s := fun hd => by
  cases h.symm.trans hd

theorem drawEphemeral_unanswered {s : State} {rest : List (Option Nat)} (h0 : s.lR = 0) (hm : s.lMode = .entropy)
    (hans : s.rng.answers = none :: rest) : drawEphemeral s = none := by
  simp only [drawEphemeral, h0, hm, draw_unanswered hans, if_true]

theorem exec_encrypt_unanswered {s : State} {rest : List (Option Nat)} (he : encryptError s = none) (h0 : s.lR = 0)
    (hm : s.lMode = .entropy) (hans : s.rng.answers = none :: rest) :
    exec .encrypt s = .fault .entropyNeverAnswers := by
  simp only [exec, execEncrypt, he, drawEphemeral_unanswered h0 hm hans]

/-- Rounds whose drawn bases are strong passes do not end when the next base's draw is unanswered (R120, R245). -/
theorem mrRounds_unanswered_of_strongPasses {n k j : Nat} {bases : List Nat} {g g' : Rng} {rest : List (Option Nat)}
    (h5 : 5 ≤ n) (h33 : n < 2 ^ 33) (hodd : n % 2 = 1) (hd : Draws .entropy 2 (n - 2) g bases g')
    (hk : bases.length < k) (hp : ∀ b ∈ bases, StrongPass n b) (hans : g'.answers = none :: rest) :
    mrRounds .entropy n k j g = none :=
  mrRounds_unanswered (draw_unanswered hans) hd hk fun b hb => (mrRound_iff n b h5 h33 hodd).2 (hp b hb)

/-- A search does not end when its next candidate's draw is unanswered (R160, R245). -/
theorem searchPrime_unanswered_candidate {k left i : Nat} {g : Rng} {rest : List (Option Nat)}
    (hans : g.answers = none :: rest) : searchPrime .entropy k (left + 1) i g = none := by
  simp only [searchPrime, draw_unanswered hans]

/-- A search does not end when the rounds of its next candidate do not (R162, R245). -/
theorem searchPrime_unanswered_round {mode : RngMode} {k left i u : Nat} {g g1 : Rng}
    (hd : draw mode 0 (2 ^ 31 - 1) g = some (u, g1)) (hr : mrRounds mode (candidate u) k 1 g1 = none) :
    searchPrime mode k (left + 1) i g = none := by
  simp only [searchPrime, hd, hr]

/-- FINDPRIME is stuck when its search is stuck at the candidate after some that it discards (R160, R245). -/
theorem exec_findprime_stuck {s : State} {n : Nat} {g : Rng} (hl : FindprimeLegal s) (hn : n < s.lop.b.toNat)
    (hd : Discarded s.lMode s.lop.a.toNat n s.rng g)
    (hstuck : ∀ left i, searchPrime s.lMode s.lop.a.toNat (left + 1) i g = none) :
    exec .findprime s = .fault .entropyNeverAnswers := by
  obtain ⟨left, hleft⟩ := Nat.exists_eq_add_of_lt hn
  rw [exec_findprime_of_legal hl, hleft, Nat.add_assoc, searchPrime_of_discarded hd, hstuck, State.afterSearch]

/-- Settles O44: a fault comes from a draw without an answer, which only entropy mode knows; and each drawing command
stops at such a draw, behind the passed rounds and discarded candidates before it. -/
theorem onlyAnUnansweredDrawStops : Obligations.OnlyAnUnansweredDrawStops := by
  unfold Obligations.OnlyAnUnansweredDrawStops
  refine ⟨fun i s f h => ?_, exec_not_refused, fun s rest hf hp hlt h0 hm hans => ?_,
    fun s bases g rest hf h1 hle h5 hodd hm hd hk hpass hans => ?_,
    fun s n g rest hf h20 hle hm hn hd => ⟨fun hans => ?_, fun u g1 g2 bases hu hb hk hpass hans => ?_⟩⟩
  · obtain ⟨hfault, hnone⟩ := exec_fault h
    obtain ⟨hmode, hi⟩ := mode_of_exec_fault h
    exact ⟨hfault, hmode, hnone, hi⟩
  · exact exec_encrypt_unanswered (encryptError_eq_none hf hp (seedOk_of_entropy hm) hlt) h0 hm hans
  · rw [exec_mrtest_of_odd ⟨hf, h1, hle, seedOk_of_entropy hm⟩ h5 hodd, hm,
      mrRounds_unanswered_of_strongPasses h5 hf.1 hodd hd hk hpass hans, State.afterRounds]
  · refine exec_findprime_stuck ⟨hf, h20, hle, by omega, seedOk_of_entropy hm⟩ hn (hm ▸ hd) fun left i => ?_
    rw [hm, searchPrime_unanswered_candidate hans]
  · refine exec_findprime_stuck ⟨hf, h20, hle, by omega, seedOk_of_entropy hm⟩ hn (hm ▸ hd) fun left i => ?_
    obtain ⟨hc5, hc33, hcodd⟩ := candidate_of_draw hu
    rw [hm, searchPrime_unanswered_round hu (mrRounds_unanswered_of_strongPasses hc5 hc33 hcodd hb hk hpass hans)]

end Sys2Proof.Machine
end
